-- ==== Sys2Proof/Word.lean ====
section
/-! DEFINITION. The value types of the core: bytes, 32-bit Words and 16-bit command words
(00_scope.md R11, R12, R14; 30_encoding.md R64). -/

namespace Sys2Proof

/-- A message byte or buffer byte (00_scope.md R8). -/
abbrev Byte := BitVec 8

/-- A Word of the data path: 32 bits, unsigned (00_scope.md R14). -/
abbrev Word := BitVec 32

/-- A command word, transferred as one 16-bit value (30_encoding.md R64, 20_memory.md R50). -/
abbrev CommandWord := BitVec 16

end Sys2Proof
end

