-- ==== Sys2Proof/Syntax.lean ====
section
/-! DEFINITION. The eight host commands of `CORE-CMD 1.0`, one constructor per row of spec/opcode_table.json
(30_encoding.md R65, R66). -/

namespace Sys2Proof

/-- A host command. The operand is the `arg` field as it stands, an unsigned 8-bit value (30_encoding.md R65). -/
inductive Instr where
  /-- NOP, `0x0000` (46_control_and_pipeline.md R129). -/
  | nop
  /-- INIT, `0x1000` (46_control_and_pipeline.md R130). -/
  | init
  /-- ABSORB, `0x2000 + b`: the message byte `b` (40_bit_encoder.md R80). -/
  | absorb (b : Byte)
  /-- FINAL, `0x3000` (41_padder.md R91). -/
  | final
  /-- RDSTAT, `0x4000` (46_control_and_pipeline.md R131). -/
  | rdstat
  /-- RDWORD, `0x5000 + i`: the State word index `i` (45_digest_assembler.md R124). -/
  | rdword (i : Byte)
  /-- RDBYTE, `0x6000 + k`: the Digest byte index `k` (45_digest_assembler.md R125). -/
  | rdbyte (k : Byte)
  /-- RDHEX, `0x7000 + j`: the hexadecimal character index `j` (45_digest_assembler.md R126). -/
  | rdhex (j : Byte)
  deriving DecidableEq, Repr

end Sys2Proof
end

