-- ==== Sys2Proof/WellFormed.lean ====
section
/-! DEFINITION. Which terms of `Instr` the command set has: the operand constraints of 30_encoding.md R66. -/

namespace Sys2Proof

/-- The operand constraint of each row of 30_encoding.md R66: `i <= 4`, `i <= 19`, `i <= 39` for the three digest reads,
none for the rest. -/
def Instr.wellFormed : Instr → Bool
  | .nop | .init | .absorb _ | .final | .rdstat => true
  | .rdword i => i.toNat ≤ 4
  | .rdbyte k => k.toNat ≤ 19
  | .rdhex j => j.toNat ≤ 39

end Sys2Proof
end

