-- ==== Sys2Proof/Decode.lean ====
section
/-! DEFINITION. The decoder, total on all 65536 words and rejecting by name (30_encoding.md R64, R68, R69), the spec's
predicate `legal`, the encoder (30_encoding.md R66) and the host's numbering of a table word. -/

namespace Sys2Proof

/-- `op = cw[15:12]` (30_encoding.md R64). -/
def opField (cw : CommandWord) : BitVec 4 := cw.extractLsb' 12 4

/-- `rsv = cw[11:8]` (30_encoding.md R64). -/
def rsvField (cw : CommandWord) : BitVec 4 := cw.extractLsb' 8 4

/-- `arg = cw[7:0]` (30_encoding.md R64). -/
def argField (cw : CommandWord) : Byte := cw.extractLsb' 0 8

/-- Why a word is illegal: the classes of 30_encoding.md R69. -/
inductive DecodeError where
  /-- `op` in 8 to 15. -/
  | reservedOpcode
  /-- `rsv != 0`. -/
  | reservedBits
  /-- `op` in 0, 1, 3, 4 with `arg != 0`. -/
  | operandNotZero
  /-- RDWORD with `arg >= 5`, RDBYTE with `arg >= 20`, RDHEX with `arg >= 40`. -/
  | indexOutOfRange
  deriving DecidableEq, Repr

/-- The predicate `legal(cw)` as 30_encoding.md R68 writes it: it depends on the word alone. -/
def legal (cw : CommandWord) : Bool :=
  rsvField cw == 0 &&
    (((opField cw == 0 || opField cw == 1 || opField cw == 3 || opField cw == 4) && argField cw == 0)
      || opField cw == 2
      || (opField cw == 5 && (argField cw).toNat ≤ 4)
      || (opField cw == 6 && (argField cw).toNat ≤ 19)
      || (opField cw == 7 && (argField cw).toNat ≤ 39))

/-- A command that takes no operand: its `arg` must be 0 (30_encoding.md R65, R69). -/
def decodeNoOperand (i : Instr) (arg : Byte) : Except DecodeError Instr :=
  if arg = 0 then .ok i else .error .operandNotZero

/-- A digest read: its index must lie in the view (30_encoding.md R66, R69). -/
def decodeIndexed (i : Instr) : Except DecodeError Instr :=
  if i.wellFormed then .ok i else .error .indexOutOfRange

/-- The decoder (30_encoding.md R66, R68, R69). -/
def decode (cw : CommandWord) : Except DecodeError Instr :=
  if 8 ≤ (opField cw).toNat then .error .reservedOpcode
  else if rsvField cw ≠ 0 then .error .reservedBits
  else
    match (opField cw).toNat with
    | 0 => decodeNoOperand .nop (argField cw)
    | 1 => decodeNoOperand .init (argField cw)
    | 2 => .ok (.absorb (argField cw))
    | 3 => decodeNoOperand .final (argField cw)
    | 4 => decodeNoOperand .rdstat (argField cw)
    | 5 => decodeIndexed (.rdword (argField cw))
    | 6 => decodeIndexed (.rdbyte (argField cw))
    | _ => decodeIndexed (.rdhex (argField cw))

/-- The opcode of each command (30_encoding.md R66). -/
def Instr.opcode : Instr → BitVec 4
  | .nop => 0
  | .init => 1
  | .absorb _ => 2
  | .final => 3
  | .rdstat => 4
  | .rdword _ => 5
  | .rdbyte _ => 6
  | .rdhex _ => 7

/-- The operand field of each command, 0 where there is no operand (30_encoding.md R65). -/
def Instr.operand : Instr → Byte
  | .nop | .init | .final | .rdstat => 0
  | .absorb b => b
  | .rdword i => i
  | .rdbyte k => k
  | .rdhex j => j

/-- The encoder: `op`, `rsv = 0`, `arg` from bit 15 down to bit 0 (30_encoding.md R64, R66). -/
def encode (i : Instr) : CommandWord := i.opcode ++ (0 : BitVec 4) ++ i.operand

/-- The host's table word: the low `nbits` bits of `w`, every bit above them 0. The core's only command length is 16 bits
(30_encoding.md R71), transferred as one value (20_memory.md R50). -/
def tableWord (nbits w : Nat) : CommandWord := BitVec.ofNat 16 (w % 2 ^ nbits)

/-- The instruction the decoder reads from a row of spec/opcode_table.json, none where it refuses. -/
def decodeTableWord (nbits w : Nat) : Option Instr :=
  match decode (tableWord nbits w) with
  | .ok i => some i
  | .error _ => none

end Sys2Proof
end

