-- ==== Sys2Proof/Config.lean ====
section
/-! DEFINITION. What the spec leaves open (00_scope.md R10), and the one definition of what an unwritten byte of the
block buffer reads as. -/

namespace Sys2Proof

/-- DESIGN CHOICE, unsafe, log entry 2: what a byte of `BUF` that is not listed reads as.
10_state.md R38 leaves the contents of `BUF` after reset unspecified. -/
def Config.unlistedByte : Byte := 0

/-- `RESET_DRAW` (00_scope.md R10, 10_state.md R38): the 32-bit value that reset step number `draw` leaves in the Word
register number `register` (0 to 4: `H`; 5 to 9: `a` to `e`; 10 to 89: `W`). A FREE VALUE: it has no body
(log entry 3, safe). -/
opaque Config.resetDrawWord (draw register : Nat) : Word

/-- `RESET_DRAW` for the block buffer: the value that reset step number `draw` leaves in `BUF[address]`. A FREE VALUE: it
has no body (log entry 3, safe). -/
opaque Config.resetDrawByte (draw address : Nat) : Byte

end Sys2Proof
end

