-- ==== Sys2Proof/Machine/State.lean ====
section
/-! DEFINITION. The state of the core as plain data: everything 10_state.md R20 lists, and the ports of 30_encoding.md
R63 as the model's own fields. -/

namespace Sys2Proof.Machine

/-- The block buffer `BUF`, the only byte-addressed storage of the core (00_scope.md R16): the listed bytes by address, in
ONE canonical form (`Memory.wf`). -/
abbrev Memory := List Host.Cell

/-- The eight sequencer states (10_state.md R30). -/
inductive Fsm where
  | idle | absorb | done | fault | load | expand | round | fold
  deriving DecidableEq, Repr

/-- The finalisation stage (10_state.md R31). Code 3 is reserved and never produced: the type leaves it out
(93_implementation_defined.md U5, log entry 7). -/
inductive FinStage where
  | none | extra | last
  deriving DecidableEq, Repr

/-- The cause register (10_state.md R32, 60_exceptions.md R141). Codes 5 to 7 are reserved and never produced: the type
leaves them out (93_implementation_defined.md U5, log entry 7). -/
inductive Cause where
  | none | inputTooLarge | internalInvariantViolation | illegalCommand | sequenceError
  deriving DecidableEq, Repr

/-- The working registers of the Compressor (10_state.md R24). -/
structure Working where
  a : Word
  b : Word
  c : Word
  d : Word
  e : Word
  deriving DecidableEq, Repr

/-- One response: RERR and RDATA (30_encoding.md R67). -/
structure Response where
  err : Bool
  data : Word
  deriving DecidableEq, Repr

/-- What the host does with the ports `rst`, `cmd_valid`, `cmd` (30_encoding.md R63, log entry 4). -/
inductive HostAction where
  /-- `rst` is asserted for one step (70_reset_and_hazards.md R166). -/
  | reset
  /-- `cmd_valid` with this word on `cmd`, held steady until it is accepted, as 70_reset_and_hazards.md R172 asks of the
  host. -/
  | command (word : CommandWord)
  /-- `cmd_valid` with this word on `cmd` for one step only, whether or not it is accepted: a host that withdraws or changes
  its word (the first row of 70_reset_and_hazards.md R172). -/
  | offer (word : CommandWord)
  /-- One step in which the host offers nothing. -/
  | nothing
  deriving DecidableEq, Repr

/-- The whole state of one core. -/
structure State where
  /-- `H[0..4]` (10_state.md R21). -/
  h : Vector Word 5
  /-- `a, b, c, d, e` (10_state.md R24). -/
  work : Working
  /-- `W[0..79]` (10_state.md R25). -/
  w : Vector Word 80
  /-- `BUF[0..63]` (10_state.md R26). -/
  buf : Memory
  /-- `BUFLEN` (10_state.md R27). -/
  bufLen : BitVec 7
  /-- `LEN` (10_state.md R28). -/
  len : BitVec 64
  /-- `T` (10_state.md R29). -/
  t : BitVec 7
  /-- `FSM` (10_state.md R30). -/
  fsm : Fsm
  /-- `FIN` (10_state.md R31). -/
  fin : FinStage
  /-- `CAUSE` (10_state.md R32). -/
  cause : Cause
  /-- The model's own: what the host will do next, oldest first (log entry 4). -/
  inputs : List HostAction
  /-- The model's own: the response port as the last step drove it; none is `rsp_valid = 0` (30_encoding.md R63, log entry 5). -/
  rsp : Option Response
  /-- The model's own: how many reset steps were taken, the argument of the free values `RESET_DRAW` (log entry 3). -/
  draws : Nat
  deriving DecidableEq, Repr

/-- The reasons the MODEL stops. They are not the core's faults: those are `Cause`s, and taking one is a next state
(60_exceptions.md R140). -/
inductive Fault where
  /-- Raised by ABSORB and FINAL in phase ABSORB when `BUFLEN` is 64 or more, so that `BUF[BUFLEN]` does not exist
  (20_memory.md R47, 93_implementation_defined.md U5). Safe; no run from reset reaches it (log entry 8). -/
  | bufferIndexOutOfRange
  /-- Raised by the EXPAND step when `T` is not 16 to 79 and by the ROUND step when `T` is not 0 to 79, so that a word of `W`
  they use does not exist (20_memory.md R47, 93_implementation_defined.md U5). Safe; no run from reset reaches it
  (log entry 9). -/
  | scheduleIndexOutOfRange
  deriving DecidableEq, Repr

/-- The reasons the model refuses. -/
inductive Refusal where
  /-- Raised by an arm of `exec` whose instruction has no meaning yet; no arm is left so. Safe. -/
  | notModelled (mnemonic : String)
  deriving DecidableEq, Repr

/-- The machine right after reset (10_state.md R39). `H`, `a` to `e`, `W` and `BUF` are unspecified there (R38); the
zeros are the model's DESIGN CHOICE, unsafe (log entries 1 and 2). The host has offered nothing (log entry 4). -/
def State.reset : State where
  h := Vector.replicate 5 0
  work := ⟨0, 0, 0, 0, 0⟩
  w := Vector.replicate 80 0
  buf := []
  bufLen := 0
  len := 0
  t := 0
  fsm := .idle
  fin := .none
  cause := .none
  inputs := []
  rsp := Option.none
  draws := 0

end Sys2Proof.Machine
end

