-- ==== Sys2Proof/Machine/Flags.lean ====
section
/-! DEFINITION. The flag-like state of the core: the codes of `FSM`, `FIN` and `CAUSE`, ready and busy, and the `STATUS`
view (10_state.md R30 to R34). There are no condition codes and no arithmetic flags (10_state.md R34). -/

namespace Sys2Proof.Machine

/-- The 3-bit code of a sequencer state (10_state.md R30). -/
def Fsm.code : Fsm → BitVec 3
  | .idle => 0
  | .absorb => 1
  | .done => 2
  | .fault => 3
  | .load => 4
  | .expand => 5
  | .round => 6
  | .fold => 7

/-- The 2-bit code of a finalisation stage (10_state.md R31). -/
def FinStage.code : FinStage → BitVec 2
  | .none => 0
  | .extra => 1
  | .last => 2

/-- The 3-bit code of a cause (60_exceptions.md R141). -/
def Cause.code : Cause → BitVec 3
  | .none => 0
  | .inputTooLarge => 1
  | .internalInvariantViolation => 2
  | .illegalCommand => 3
  | .sequenceError => 4

/-- The core is ready exactly when `FSM[2] = 0` (10_state.md R30). -/
def Fsm.ready (f : Fsm) : Bool := !f.code.getLsbD 2

/-- `cmd_ready` (30_encoding.md R63). -/
def cmdReady (s : State) : Bool := s.fsm.ready

/-- `rsp_valid` of the last step (30_encoding.md R63). -/
def rspValid (s : State) : Bool := s.rsp.isSome

/-- `STATUS = zext_32(FSM[1:0]) + 4 * CAUSE + 256 * BUFLEN` (10_state.md R33). -/
def status (s : State) : Word :=
  (s.fsm.code.extractLsb' 0 2).zeroExtend 32 + 4 * s.cause.code.zeroExtend 32 + 256 * s.bufLen.zeroExtend 32

/-- `zext_32(CAUSE)`, the RDATA of an error response (30_encoding.md R67). -/
def Cause.data (c : Cause) : Word := c.code.zeroExtend 32

end Sys2Proof.Machine
end

