-- ==== Sys2Proof/Machine/Operands.lean ====
section
/-! DEFINITION. Bits, bytes and byte order (00_scope.md R14, R15), and the three indexed views that the operand of a digest
read selects from (20_memory.md R47, R49; 45_digest_assembler.md R122, R123). -/

namespace Sys2Proof.Machine

/-- `rotl(x, n)` (00_scope.md R14). -/
def rotl (x : Word) (n : Nat) : Word := x.rotateLeft n

/-- `be32(b0, b1, b2, b3)`: `b0` most significant (00_scope.md R15). -/
def be32 (b0 b1 b2 b3 : Byte) : Word := b0 ++ b1 ++ b2 ++ b3

/-- Byte `r` of the big-endian image of a 64-bit value: `L[63 - 8r : 56 - 8r]` (00_scope.md R15, 20_memory.md R49). -/
def be64byte (l : BitVec 64) (r : Nat) : Byte := l.extractLsb' (56 - 8 * r) 8

/-- `be64bytes(L)` (00_scope.md R15). -/
def be64bytes (l : BitVec 64) : List Byte := (List.range 8).map (be64byte l)

/-- `be32bytes(w)` (00_scope.md R15). -/
def be32bytes (x : Word) : List Byte := (List.range 4).map fun r => x.extractLsb' (24 - 8 * r) 8

/-- The digest word view, index 0 to 4: `H[i]`. -/
def digestWord (h : Vector Word 5) (i : Nat) : Word := h[i]?.getD 0

/-- The digest byte view, index 0 to 19: `H[k div 4][31 - 8 (k mod 4) : 24 - 8 (k mod 4)]`. -/
def digestByte (h : Vector Word 5) (k : Nat) : Byte := (digestWord h (k / 4)).extractLsb' (24 - 8 * (k % 4)) 8

/-- `nibble(j) = H[j div 8][31 - 4 (j mod 8) : 28 - 4 (j mod 8)]`, index 0 to 39. -/
def digestNibble (h : Vector Word 5) (j : Nat) : BitVec 4 := (digestWord h (j / 8)).extractLsb' (28 - 4 * (j % 8)) 4

/-- The character code of one hexadecimal digit: `0x30 + v` for 0 to 9, `0x57 + v` for 10 to 15
(45_digest_assembler.md R123). -/
def hexCode (v : BitVec 4) : Byte := if v.toNat ≤ 9 then 0x30 + v.zeroExtend 8 else 0x57 + v.zeroExtend 8

/-- The digest hex view, index 0 to 39. -/
def digestHex (h : Vector Word 5) (j : Nat) : Byte := hexCode (digestNibble h j)

end Sys2Proof.Machine
end

