-- ==== Sys2Proof/Machine/Ops.lean ====
section
/-! DEFINITION. The shared operations: reading and writing the block buffer and the Schedule, responding, taking a fault and
starting afresh, and the order in which an accepted command is checked. -/

namespace Sys2Proof.Machine

/-! ### The block buffer -/

/-- `BUF[0..63]`: sixty-four bytes (20_memory.md R47). -/
def bufferBytes : Nat := 64

/-- Read one byte of `BUF` (00_scope.md R16). -/
def Memory.read : Memory → Nat → Byte
  | [], _ => Config.unlistedByte
  | (k, v) :: rest, a => if k = a then v else Memory.read rest a

/-- List the byte `v` at address `a`, in its place. -/
def Memory.insert : Memory → Nat → Byte → Memory
  | [], a, v => [(a, v)]
  | (k, u) :: rest, a, v =>
    if a < k then (a, v) :: (k, u) :: rest
    else if a = k then (a, v) :: rest
    else (k, u) :: Memory.insert rest a v

/-- Write one byte of `BUF` (00_scope.md R16), keeping the canonical form: a byte equal to what an unlisted address reads
as is not listed. -/
def Memory.write (m : Memory) (a : Nat) (v : Byte) : Memory :=
  if v = Config.unlistedByte then m.filter (·.1 ≠ a) else m.insert a v

/-- The canonical form from address `lo` on. -/
def Memory.wfFrom : Nat → Memory → Bool
  | _, [] => true
  | lo, (k, v) :: rest => decide (lo ≤ k) && decide (k < bufferBytes) && decide (v ≠ Config.unlistedByte) && Memory.wfFrom (k + 1) rest

/-- The canonical form: addresses strictly rising, all inside `BUF[0..63]`, no entry equal to what an unlisted address
reads as. -/
def Memory.wf (m : Memory) : Bool := Memory.wfFrom 0 m

/-- Write the byte `v` to the `n` addresses from `a` on. -/
def Memory.fill (m : Memory) (a : Nat) (v : Byte) : Nat → Memory
  | 0 => m
  | n + 1 => Memory.fill (m.write a v) (a + 1) v n

/-- Write a list of bytes from address `a` on: `MemWrite` of a big-endian image (00_scope.md R16). -/
def Memory.writeBytes (m : Memory) (a : Nat) : List Byte → Memory
  | [] => m
  | v :: rest => Memory.writeBytes (m.write a v) (a + 1) rest

/-- `MemWrite(56, 8, LEN)`: the 64-bit big-endian length suffix (41_padder.md R91, 44_compressor.md R120). -/
def Memory.writeLength (m : Memory) (len : BitVec 64) : Memory := m.writeBytes 56 (be64bytes len)

/-- `MemRead(j, 4)`: four bytes packed big-endian (00_scope.md R16). -/
def Memory.readWord (m : Memory) (j : Nat) : Word :=
  be32 (m.read j) (m.read (j + 1)) (m.read (j + 2)) (m.read (j + 3))

/-- The sixteen Words of the Block in `BUF` (42_block_splitter.md R97, R101). -/
def Memory.blockWords (m : Memory) : List Word := (List.range 16).map fun i => m.readWord (4 * i)

/-! ### The Schedule -/

/-- Read `W[i]`. Every use is guarded to `i` in 0 to 79. -/
def scheduleAt (w : Vector Word 80) (i : Nat) : Word := w[i]?.getD 0

/-! ### Responses and faults -/

/-- `respond(err, data)` (00_scope.md R16, 30_encoding.md R67). -/
def respond (err : Bool) (data : Word) (s : State) : State := { s with rsp := some ⟨err, data⟩ }

/-- `raise X` (60_exceptions.md R140): `CAUSE <- code(X)`, `FSM <- FAULT`, and the response `(1, code)` if a command is
being served. Everything else keeps its value; nothing is saved, because nothing is resumed. -/
def raiseFault (serving : Bool) (x : Cause) (s : State) : State :=
  let s' := { s with cause := x, fsm := .fault }
  if serving then respond true x.data s' else s'

/-- The five initial constants (10_state.md R23; the spec supplies them from general knowledge, G1, log entry 12). -/
def initialState : Vector Word 5 := #v[0x67452301, 0xEFCDAB89, 0x98BADCFE, 0x10325476, 0xC3D2E1F0]

/-- What INIT does to the registers (46_control_and_pipeline.md R130). There is no return from a fault: this, or a reset
step, is the only way out of FAULT (60_exceptions.md R149). -/
def beginComputation (s : State) : State :=
  { s with h := initialState, len := 0, bufLen := 0, fin := .none, t := 0, cause := .none, fsm := .absorb }

/-- In phase FAULT: `respond(1, zext_32(CAUSE))` with the retained cause, no state change (60_exceptions.md R147). -/
def answerRetained (s : State) : State := respond true s.cause.data s

/-- Checks 1 and 2 of 60_exceptions.md R148 on a word that is not legal: FAULT answers with the retained cause, any other
phase takes IllegalCommand (60_exceptions.md R143). -/
def refuseIllegal (s : State) : State :=
  if s.fsm = .fault then answerRetained s else raiseFault true .illegalCommand s

/-- Checks 1 to 3 of 60_exceptions.md R148 on a command that only the phase `phase` serves (60_exceptions.md R144):
FAULT first, then legality of the word, then the phase; `body` is the command's own rule. -/
def serveInPhase (phase : Fsm) (legalOperand : Bool) (s : State) (body : Host.Outcome State Fault Refusal) :
    Host.Outcome State Fault Refusal :=
  if s.fsm = .fault then .next (answerRetained s)
  else if legalOperand = false then .next (raiseFault true .illegalCommand s)
  else if s.fsm = phase then body
  else .next (raiseFault true .sequenceError s)

end Sys2Proof.Machine
end

