-- ==== Sys2Proof/Machine/BitEncoder.lean ====
section
/-! DEFINITION. The Bit Encoder (40_bit_encoder.md R76, R77) and the ABSORB command (R80). -/

namespace Sys2Proof.Machine

/-- The eight bits of a byte, bit 7 first (40_bit_encoder.md R77). -/
def byteBits (b : Byte) : List Bool := (List.range 8).map fun i => b.getLsbD (7 - i)

/-- `encode(m)`: the Bitstream of a Message (40_bit_encoder.md R76, R77). -/
def bitEncode (m : List Byte) : List Bool := m.flatMap byteBits

/-- The state after an accepted byte (40_bit_encoder.md R80): it goes to `BUF[BUFLEN]`; the 64th byte starts a Block
computation. -/
def absorbed (b : Byte) (s : State) : State :=
  respond false 0
    { s with
      buf := s.buf.write s.bufLen.toNat b
      bufLen := s.bufLen + 1
      len := s.len + 8
      fsm := if s.bufLen.toNat + 1 = bufferBytes then .load else s.fsm }

/-- The served case of ABSORB (40_bit_encoder.md R80). `BUF[BUFLEN]` does not exist for `BUFLEN >= 64`: the model stops there
(log entry 8). -/
def absorbByte (b : Byte) (s : State) : Host.Outcome State Fault Refusal :=
  if s.bufLen.toNat < bufferBytes then .next (absorbed b s) else .fault .bufferIndexOutOfRange

/-- ABSORB (40_bit_encoder.md R80): served in phase ABSORB; InputTooLarge when the new bit length does not fit in 64
bits (60_exceptions.md R142, 90_conflicts.md C1). -/
def execAbsorb (b : Byte) (s : State) : Host.Outcome State Fault Refusal :=
  serveInPhase .absorb true s
    (if 2 ^ 64 - 1 < s.len.toNat + 8 then .next (raiseFault true .inputTooLarge s) else absorbByte b s)

end Sys2Proof.Machine
end

