-- ==== Sys2Proof/Machine/Control.lean ====
section
/-! DEFINITION. The control commands NOP, INIT and RDSTAT (46_control_and_pipeline.md R129 to R131). -/

namespace Sys2Proof.Machine

/-- NOP (46_control_and_pipeline.md R129): served in every phase. -/
def execNop (s : State) : Host.Outcome State Fault Refusal := .next (respond false 0 s)

/-- INIT (46_control_and_pipeline.md R130): served in every phase; it leaves FAULT (60_exceptions.md R149). `a` to `e`, `W`
and `BUF` are not written. -/
def execInit (s : State) : Host.Outcome State Fault Refusal := .next (respond false 0 (beginComputation s))

/-- RDSTAT (46_control_and_pipeline.md R131): served in every phase, RERR is 0 even in FAULT. -/
def execRdstat (s : State) : Host.Outcome State Fault Refusal := .next (respond false (status s) s)

end Sys2Proof.Machine
end

