-- ==== Sys2Proof/Machine/DigestAssembler.lean ====
section
/-! DEFINITION. The Digest Assembler (45_digest_assembler.md R122, R123) and the digest reads RDWORD, RDBYTE and RDHEX
(R124 to R126). A read whose operand no legal word carries is taken as the decoder takes it (60_exceptions.md R148,
log entry 11). -/

namespace Sys2Proof.Machine

/-- `assemble(H)`: 160 bits, `H[0]` most significant (45_digest_assembler.md R122). -/
def assembleDigest (h : Vector Word 5) : BitVec 160 := h[0] ++ h[1] ++ h[2] ++ h[3] ++ h[4]

/-- The twenty Digest bytes in order (45_digest_assembler.md R122). -/
def digestBytes (h : Vector Word 5) : List Byte := (List.range 20).map (digestByte h)

/-- The forty character codes of the lower-case hexadecimal string (45_digest_assembler.md R123). -/
def digestHexString (h : Vector Word 5) : List Byte := (List.range 40).map (digestHex h)

/-- RDWORD (45_digest_assembler.md R124). -/
def execRdword (i : Byte) (s : State) : Host.Outcome State Fault Refusal :=
  serveInPhase .done (i.toNat ≤ 4) s (.next (respond false (digestWord s.h i.toNat) s))

/-- RDBYTE (45_digest_assembler.md R125). -/
def execRdbyte (k : Byte) (s : State) : Host.Outcome State Fault Refusal :=
  serveInPhase .done (k.toNat ≤ 19) s (.next (respond false ((digestByte s.h k.toNat).zeroExtend 32) s))

/-- RDHEX (45_digest_assembler.md R126). -/
def execRdhex (j : Byte) (s : State) : Host.Outcome State Fault Refusal :=
  serveInPhase .done (j.toNat ≤ 39) s (.next (respond false ((digestHex s.h j.toNat).zeroExtend 32) s))

end Sys2Proof.Machine
end

