-- ==== Sys2Proof/Machine/Padder.lean ====
section
/-! DEFINITION. The Padder (41_padder.md R83, R84) and the FINAL command (R91). -/

namespace Sys2Proof.Machine

/-- `k = (447 - L) mod 512`, the result in 0 to 511 (41_padder.md R84; 90_conflicts.md C2: the minimal one). -/
def padZeros (bitLength : Nat) : Nat := ((447 - (bitLength : Int)) % 512).toNat

/-- `len64(L)`: 64 bits, most significant first (41_padder.md R84). -/
def len64 (bitLength : Nat) : List Bool := (List.range 64).map fun i => bitLength.testBit (63 - i)

/-- `pad(s)` (41_padder.md R83, R84): InputTooLarge when the length does not fit in 64 bits. -/
def padBits (s : List Bool) : Except Cause (List Bool) :=
  if s.length < 2 ^ 64 then .ok (s ++ [true] ++ List.replicate (padZeros s.length) false ++ len64 s.length)
  else .error .inputTooLarge

/-- The Block FINAL builds in `BUF` for `n = BUFLEN` (41_padder.md R91): `0x80`, zeros to the end, and over the last eight
bytes the length where it fits. -/
def padBlock (m : Memory) (n : Nat) (len : BitVec 64) : Memory :=
  let zeroed := (m.write n 0x80).fill (n + 1) 0x00 (bufferBytes - (n + 1))
  if n ≤ 55 then zeroed.writeLength len else zeroed

/-- The state after FINAL has padded the message (41_padder.md R91). -/
def padded (s : State) : State :=
  respond false 0
    { s with
      buf := padBlock s.buf s.bufLen.toNat s.len
      fin := if s.bufLen.toNat ≤ 55 then .last else .extra
      bufLen := 64
      fsm := .load }

/-- The served case of FINAL (41_padder.md R91). `BUF[BUFLEN]` does not exist for `BUFLEN >= 64`: the model stops there
(log entry 8). -/
def finishMessage (s : State) : Host.Outcome State Fault Refusal :=
  if s.bufLen.toNat < bufferBytes then .next (padded s) else .fault .bufferIndexOutOfRange

/-- FINAL (41_padder.md R91): served in phase ABSORB. -/
def execFinal (s : State) : Host.Outcome State Fault Refusal := serveInPhase .absorb true s (finishMessage s)

end Sys2Proof.Machine
end

