-- ==== Sys2Proof/Machine/Dispatch.lean ====
section
/-! DEFINITION. The meaning of each command: one arm per constructor of `Instr`. -/

namespace Sys2Proof.Machine

def exec (i : Instr) (s : State) : Host.Outcome State Fault Refusal :=
  match i with
  | .nop => Sys2Proof.Machine.execNop s
  | .init => Sys2Proof.Machine.execInit s
  | .absorb b => Sys2Proof.Machine.execAbsorb b s
  | .final => Sys2Proof.Machine.execFinal s
  | .rdstat => Sys2Proof.Machine.execRdstat s
  | .rdword n => Sys2Proof.Machine.execRdword n s
  | .rdbyte k => Sys2Proof.Machine.execRdbyte k s
  | .rdhex j => Sys2Proof.Machine.execRdhex j s

end Sys2Proof.Machine
end

