-- ==== Sys2Proof/Machine/BlockSplitter.lean ====
section
/-! DEFINITION. The Block Splitter (42_block_splitter.md R96, R97) and the LOAD step (R100). -/

namespace Sys2Proof.Machine

/-- The value of a bit slice, its first bit most significant (42_block_splitter.md R97). -/
def bitsValue (bits : List Bool) : Nat := bits.foldl (fun acc b => 2 * acc + b.toNat) 0

/-- Word `i` of Block `j` of a padded Bitstream: `M_j[i]` (42_block_splitter.md R97). -/
def streamWord (p : List Bool) (j i : Nat) : Word := BitVec.ofNat 32 (bitsValue ((p.drop (512 * j + 32 * i)).take 32))

/-- `split(p)`: the Blocks in stream order, each as its sixteen Words (42_block_splitter.md R96, R97);
InternalInvariantViolation when the length is not a positive multiple of 512 (R98). -/
def splitBlocks (p : List Bool) : Except Cause (List (List Word)) :=
  if p.length = 0 ∨ p.length % 512 ≠ 0 then .error .internalInvariantViolation
  else .ok ((List.range (p.length / 512)).map fun j => (List.range 16).map fun i => streamWord p j i)

/-- `W` after LOAD: the sixteen Words of the Block in `W[0..15]`, the rest unchanged (42_block_splitter.md R100). -/
def loadSchedule (m : Memory) (w : Vector Word 80) : Vector Word 80 :=
  Vector.ofFn fun i : Fin 80 => if i.val < 16 then m.readWord (4 * i.val) else w[i.val]

/-- The copy of `H` into `a` to `e` (42_block_splitter.md R100). -/
def workingOf (h : Vector Word 5) : Working := ⟨h[0], h[1], h[2], h[3], h[4]⟩

/-- The state after LOAD has split the Block (42_block_splitter.md R100). -/
def loaded (s : State) : State :=
  { s with w := loadSchedule s.buf s.w, work := workingOf s.h, t := 16, fsm := .expand }

/-- LOAD (42_block_splitter.md R100): InternalInvariantViolation when `BUFLEN != 64`, with no response, because no command
is being served (60_exceptions.md R146). -/
def loadStep (s : State) : Host.Outcome State Fault Refusal :=
  if s.bufLen ≠ 64 then .next (raiseFault false .internalInvariantViolation s)
  else .next (loaded s)

end Sys2Proof.Machine
end

