-- ==== Sys2Proof/Machine/Compressor.lean ====
section
/-! DEFINITION. The Compressor (44_compressor.md R110 to R115) and the ROUND and FOLD steps (R118 to R120). The constants,
the functions and the shape of a round are those the spec supplies from general knowledge (93_implementation_defined.md
G2 to G4, log entry 12). -/

namespace Sys2Proof.Machine

/-- `K(t)` (44_compressor.md R112). -/
def roundConstant (t : Nat) : Word :=
  if t ≤ 19 then 0x5A827999 else if t ≤ 39 then 0x6ED9EBA1 else if t ≤ 59 then 0x8F1BBCDC else 0xCA62C1D6

/-- `f(t, x, y, z)`: Ch, Parity, Maj, Parity (44_compressor.md R113). -/
def roundFunction (t : Nat) (x y z : Word) : Word :=
  if t ≤ 19 then (x &&& y) ||| (~~~x &&& z)
  else if t ≤ 39 then x ^^^ y ^^^ z
  else if t ≤ 59 then (x &&& y) ||| (x &&& z) ||| (y &&& z)
  else x ^^^ y ^^^ z

/-- `round(t, (a, b, c, d, e), w)` (44_compressor.md R114): all five registers from the old values. -/
def compressRound (t : Nat) (r : Working) (x : Word) : Working where
  a := rotl r.a 5 + roundFunction t r.b r.c r.d + r.e + roundConstant t + x
  b := r.a
  c := rotl r.b 30
  d := r.c
  e := r.d

/-- The final addition of `compress`, component by component modulo 2^32 (44_compressor.md R115, R119). -/
def addWorking (h : Vector Word 5) (r : Working) : Vector Word 5 :=
  #v[h[0] + r.a, h[1] + r.b, h[2] + r.c, h[3] + r.d, h[4] + r.e]

/-- The working registers after the first `n` rounds: `r_n` (44_compressor.md R115). -/
def runRounds (r : Working) (s : List Word) (n : Nat) : Working :=
  (List.range n).foldl (fun r t => compressRound t r (s.getD t 0)) r

/-- `compress(H, S)` (44_compressor.md R115). -/
def compress (h : Vector Word 5) (s : List Word) : Vector Word 5 :=
  addWorking h (runRounds ⟨h[0], h[1], h[2], h[3], h[4]⟩ s 80)

/-- The state after one round (44_compressor.md R118). -/
def rounded (s : State) : State :=
  { s with
    work := compressRound s.t.toNat s.work (scheduleAt s.w s.t.toNat)
    t := if s.t.toNat = 79 then 0 else s.t + 1
    fsm := if s.t.toNat = 79 then .fold else s.fsm }

/-- ROUND (44_compressor.md R118). `T` is 0 to 79 whenever it runs from reset; outside that range `W[T]` does not exist
and the model stops (log entry 9). -/
def roundStep (s : State) : Host.Outcome State Fault Refusal :=
  if s.t.toNat ≤ 79 then .next (rounded s) else .fault .scheduleIndexOutOfRange

/-- The extra Block: 56 zero bytes and the length (44_compressor.md R120). -/
def extraBlock (m : Memory) (len : BitVec 64) : Memory := (m.fill 0 0x00 56).writeLength len

/-- FOLD, second half: what follows, by `FIN` (44_compressor.md R120). -/
def foldContinue (s : State) : State :=
  match s.fin with
  | .none => { s with fsm := .absorb }
  | .extra => { s with buf := extraBlock s.buf s.len, bufLen := 64, fin := .last, fsm := .load }
  | .last => { s with fin := .none, fsm := .done }

/-- The state after FOLD: the working registers are added into `H`, the Block is consumed, and `FIN` decides what follows
(44_compressor.md R119, R120). -/
def folded (s : State) : State := foldContinue { s with h := addWorking s.h s.work, bufLen := 0 }

/-- FOLD (44_compressor.md R119, R120), one atomic step. -/
def foldStep (s : State) : Host.Outcome State Fault Refusal := .next (folded s)

end Sys2Proof.Machine
end

