-- ==== Sys2Proof/Machine/MessageScheduler.lean ====
section
/-! DEFINITION. The Message Scheduler (43_message_scheduler.md R103, R104) and the EXPAND step (R106). -/

namespace Sys2Proof.Machine

/-- `n` further Words of a Schedule, each from the Words 3, 8, 14 and 16 back (43_message_scheduler.md R104). -/
def extendSchedule : Nat → List Word → List Word
  | 0, s => s
  | n + 1, s =>
    let i := s.length
    extendSchedule n
      (s ++ [rotl (s.getD (i - 3) 0 ^^^ s.getD (i - 8) 0 ^^^ s.getD (i - 14) 0 ^^^ s.getD (i - 16) 0) 1])

/-- `expand(M)`: the 80 Words of the Schedule of a Block of 16 Words (43_message_scheduler.md R104). -/
def expandBlock (m : List Word) : List Word := extendSchedule 64 m

/-- The Word EXPAND writes to `W[i]` (43_message_scheduler.md R106). -/
def nextScheduleWord (w : Vector Word 80) (i : Nat) : Word :=
  rotl (scheduleAt w (i - 3) ^^^ scheduleAt w (i - 8) ^^^ scheduleAt w (i - 14) ^^^ scheduleAt w (i - 16)) 1

/-- The state after EXPAND has written `W[T]` (43_message_scheduler.md R106). -/
def expanded (s : State) : State :=
  { s with
    w := s.w.setIfInBounds s.t.toNat (nextScheduleWord s.w s.t.toNat)
    t := if s.t.toNat = 79 then 0 else s.t + 1
    fsm := if s.t.toNat = 79 then .round else s.fsm }

/-- EXPAND (43_message_scheduler.md R106). `T` is 16 to 79 whenever it runs from reset; outside that range a word it uses
does not exist and the model stops (log entry 9). -/
def expandStep (s : State) : Host.Outcome State Fault Refusal :=
  if 16 ≤ s.t.toNat ∧ s.t.toNat ≤ 79 then .next (expanded s) else .fault .scheduleIndexOutOfRange

end Sys2Proof.Machine
end

