-- ==== Sys2Proof/Machine/Sequencer.lean ====
section
/-! DEFINITION. The sequencer's internal steps and the reset step (46_control_and_pipeline.md R128, R136;
70_reset_and_hazards.md R166). -/

namespace Sys2Proof.Machine

/-- One internal step of the sequencer, in the busy states only; in a ready state none is enabled and nothing happens
(46_control_and_pipeline.md R128, 60_exceptions.md R161). -/
def internalStep (s : State) : Host.Outcome State Fault Refusal :=
  match s.fsm with
  | .load => loadStep s
  | .expand => expandStep s
  | .round => roundStep s
  | .fold => foldStep s
  | .idle | .absorb | .done | .fault => .next s

/-- The contents of the Word registers after reset step number `n`: free values (10_state.md R38, log entry 3). -/
def drawnState (n : Nat) : Vector Word 5 := Vector.ofFn fun i : Fin 5 => Config.resetDrawWord n i.val

/-- The working registers after reset step number `n`: free values (10_state.md R38, log entry 3). -/
def drawnWorking (n : Nat) : Working where
  a := Config.resetDrawWord n 5
  b := Config.resetDrawWord n 6
  c := Config.resetDrawWord n 7
  d := Config.resetDrawWord n 8
  e := Config.resetDrawWord n 9

/-- The Schedule after reset step number `n`: free values (10_state.md R38, log entry 3). -/
def drawnSchedule (n : Nat) : Vector Word 80 := Vector.ofFn fun i : Fin 80 => Config.resetDrawWord n (10 + i.val)

/-- The block buffer after reset step number `n`: free values (10_state.md R38, log entry 3). -/
def drawnBuffer (n : Nat) : Memory :=
  Memory.writeBytes [] 0 ((List.range bufferBytes).map (Config.resetDrawByte n))

/-- The reset step (70_reset_and_hazards.md R166): the control registers to their reset values, the data registers to free
values, no response. -/
def resetStep (s : State) : State :=
  { s with
    fsm := .idle
    cause := .none
    bufLen := 0
    len := 0
    fin := .none
    t := 0
    h := drawnState s.draws
    work := drawnWorking s.draws
    w := drawnSchedule s.draws
    buf := drawnBuffer s.draws
    draws := s.draws + 1 }

end Sys2Proof.Machine
end

