-- ==== Sys2Proof/Machine/Port.lean ====
section
/-! DEFINITION. The ports: what the host does at a step, accepting a command word, and offering one (30_encoding.md R63;
46_control_and_pipeline.md R128; 60_exceptions.md R148). -/

namespace Sys2Proof.Machine

/-- The state at the start of a step: the host's remaining actions are `rest`, and the response port is not driven
(30_encoding.md R63). -/
def beginStep (rest : List HostAction) (s : State) : State := { s with inputs := rest, rsp := none }

/-- The word on `cmd` when `cmd_valid` is 1 in the step of this action, none when it is 0 or `rst` is asserted
(30_encoding.md R63). -/
def HostAction.offered : HostAction → Option CommandWord
  | .command cw | .offer cw => some cw
  | .reset | .nothing => none

/-- The word the host offers in the next step. -/
def offeredWord (s : State) : Option CommandWord := s.inputs.head?.bind HostAction.offered

/-- Accept one command word: decode it and run its meaning; a word that is not legal is refused by the checks of
60_exceptions.md R148. -/
def acceptWord (cw : CommandWord) (s : State) : Host.Outcome State Fault Refusal :=
  match decode cw with
  | .ok i => exec i s
  | .error _ => .next (refuseIllegal s)

/-- One step of the core and its host. `rst` wins (70_reset_and_hazards.md R166); an offered command is accepted when the
core is ready; while it is busy the word is not accepted, and a host that holds it offers it again (30_encoding.md R63,
70_reset_and_hazards.md R172); otherwise the sequencer takes its internal step, if one
is enabled (46_control_and_pipeline.md R128). -/
def portStep (s : State) : Host.Outcome State Fault Refusal :=
  match s.inputs with
  | .reset :: rest => .next (resetStep (beginStep rest s))
  | .command cw :: rest =>
    if cmdReady s then acceptWord cw (beginStep rest s) else internalStep (beginStep s.inputs s)
  | .offer cw :: rest => if cmdReady s then acceptWord cw (beginStep rest s) else internalStep (beginStep rest s)
  | .nothing :: rest => internalStep (beginStep rest s)
  | [] => internalStep (beginStep [] s)

/-- The host offers the word `cw` next. -/
def offerWord (s : State) (cw : CommandWord) : State := { s with inputs := .command cw :: s.inputs }

end Sys2Proof.Machine
end

