-- ==== Sys2Proof/Machine/Step.lean ====
section
/-! DEFINITION. One step of the machine, and where the host's table word is put (log entry 6). -/

namespace Sys2Proof.Machine

/-- One atomic step (00_scope.md R17): a command step, an internal step, a reset step, or a step in which nothing is
enabled. -/
def step (s : State) : Host.Outcome State Fault Refusal := portStep s

/-- `s` with the command word of a row of spec/opcode_table.json offered at the command port ahead of whatever the host
would do next: the core fetches nothing (20_memory.md R60), its words come through the port. In a ready state the very
next step accepts it; a busy core accepts it when it is ready (log entry 6). -/
def State.withFetchWord (s : State) (nbits w : Nat) : State := offerWord s (tableWord nbits w)

end Sys2Proof.Machine
end

