-- ==== Sys2Proof/Machine/Assembler.lean ====
section
/-! DEFINITION. The assembler notation and the pseudo-instructions (30_encoding.md R72, R73): how a command sequence is
written down. No hardware meaning (92_eei_decisions.md D27). Where the grammar of R72 is silent (several blanks, the case
of hexadecimal digits) the choice is log entry 17. -/

namespace Sys2Proof.Machine

/-- Why a line does not assemble. -/
inductive AsmError where
  | malformedLine | unknownMnemonic | badOperand | operandOutOfRange
  deriving DecidableEq, Repr

/-- The tokens of a line: what blanks separate, up to the comment (30_encoding.md R72). -/
def lineTokens (line : List Char) : List (List Char) :=
  ((line.takeWhile (· ≠ ';')).foldr
    (fun c acc => if c = ' ' then [] :: acc else match acc with
      | [] => [[c]]
      | t :: rest => (c :: t) :: rest) [[]]).filter (· ≠ [])

/-- The value of one digit, hexadecimal digits in either case. -/
def digitValue (c : Char) : Option Nat :=
  let n := c.toNat
  if 48 ≤ n ∧ n ≤ 57 then some (n - 48)
  else if 97 ≤ n ∧ n ≤ 102 then some (n - 87)
  else if 65 ≤ n ∧ n ≤ 70 then some (n - 55)
  else none

/-- A numeral in the given base, none for an empty one or a digit the base does not have. -/
def numeral (base : Nat) (cs : List Char) : Option Nat :=
  if cs = [] then none
  else cs.foldl (fun acc c => match acc, digitValue c with
    | some v, some d => if d < base then some (base * v + d) else none
    | _, _ => none) (some 0)

/-- `operand := decimal | '0x' hexadecimal` (30_encoding.md R72). -/
def operandValue : List Char → Option Nat
  | '0' :: 'x' :: rest => numeral 16 rest
  | cs => numeral 10 cs

/-- A command that takes an operand: the operand is a numeral that fits `arg` and meets the constraint of 30_encoding.md
R66, else an assembly error. -/
def assembleOperand (f : Byte → Instr) (cs : List Char) : Except AsmError Instr :=
  match operandValue cs with
  | none => .error .badOperand
  | some v => if v < 256 ∧ (f (BitVec.ofNat 8 v)).wellFormed then .ok (f (BitVec.ofNat 8 v)) else .error .operandOutOfRange

/-- The commands that take no operand, by mnemonic (30_encoding.md R72). -/
def plainMnemonic (name : List Char) : Option Instr :=
  if name = ['N', 'O', 'P'] then some .nop
  else if name = ['I', 'N', 'I', 'T'] then some .init
  else if name = ['F', 'I', 'N', 'A', 'L'] then some .final
  else if name = ['R', 'D', 'S', 'T', 'A', 'T'] then some .rdstat
  else none

/-- The commands that take an operand, by mnemonic (30_encoding.md R72). -/
def operandMnemonic (name : List Char) : Option (Byte → Instr) :=
  if name = ['A', 'B', 'S', 'O', 'R', 'B'] then some .absorb
  else if name = ['R', 'D', 'W', 'O', 'R', 'D'] then some .rdword
  else if name = ['R', 'D', 'B', 'Y', 'T', 'E'] then some .rdbyte
  else if name = ['R', 'D', 'H', 'E', 'X'] then some .rdhex
  else none

/-- `line := mnemonic [operand] [';' comment]`, mnemonics in upper case (30_encoding.md R72). -/
def assembleLine (line : List Char) : Except AsmError Instr :=
  match lineTokens line with
  | name :: operands =>
    match plainMnemonic name, operandMnemonic name, operands with
    | some i, _, [] => .ok i
    | _, some f, [n] => assembleOperand f n
    | none, none, _ => .error .unknownMnemonic
    | _, _, _ => .error .malformedLine
  | [] => .error .malformedLine

/-- The UTF-8 bytes of a text, fixed for the assembler's strings only (30_encoding.md R73, 92_eei_decisions.md D14). -/
def utf8Bytes (text : List Char) : List Byte := (text.flatMap String.utf8EncodeChar).map UInt8.toBitVec

/-- The pseudo-instructions (30_encoding.md R73). -/
inductive Pseudo where
  | plain (i : Instr)
  | absorbs (text : List Char)
  | absorbx (bytes : List Byte)
  | hash (text : List Char)
  | digestw
  | digestb
  | digesth
  deriving DecidableEq, Repr

/-- One ABSORB per byte, in order. -/
def absorbAll (m : List Byte) : List Instr := m.map .absorb

/-- The command sequence of one whole message: INIT, the bytes, FINAL (30_encoding.md R73, 46_control_and_pipeline.md R135). -/
def messageCommands (m : List Byte) : List Instr := .init :: (absorbAll m ++ [.final])

/-- The expansion of each pseudo-instruction (30_encoding.md R73). -/
def Pseudo.expand : Pseudo → List Instr
  | .plain i => [i]
  | .absorbs text => absorbAll (utf8Bytes text)
  | .absorbx bytes => absorbAll bytes
  | .hash text => messageCommands (utf8Bytes text)
  | .digestw => (List.range 5).map fun i => .rdword (BitVec.ofNat 8 i)
  | .digestb => (List.range 20).map fun k => .rdbyte (BitVec.ofNat 8 k)
  | .digesth => (List.range 40).map fun j => .rdhex (BitVec.ofNat 8 j)

/-- The command words of a program. -/
def assembleProgram (p : List Pseudo) : List CommandWord := (p.flatMap Pseudo.expand).map encode

end Sys2Proof.Machine
end

