-- ==== Sys2Proof/Machine/Hash.lean ====
section
/-! DEFINITION. The whole-message function `hash` as a composition of the six components (46_control_and_pipeline.md R132,
R133). It is a pure function beside the machine; no step calls it. -/

namespace Sys2Proof.Machine

/-- The State after a sequence of Blocks: `X_(j+1) = compress(X_j, expand(B_j))` (46_control_and_pipeline.md R132). -/
def foldBlocks (x : Vector Word 5) (blocks : List (List Word)) : Vector Word 5 :=
  blocks.foldl (fun x b => compress x (expandBlock b)) x

/-- `X_N`, the final State of `hash(m)`, or the error that `pad` or `split` raises (46_control_and_pipeline.md R132,
R133). -/
def finalState (m : List Byte) : Except Cause (Vector Word 5) :=
  match padBits (bitEncode m) with
  | .error e => .error e
  | .ok p =>
    match splitBlocks p with
    | .error e => .error e
    | .ok blocks => .ok (foldBlocks initialState blocks)

/-- `hash(m)` (46_control_and_pipeline.md R132). -/
def hashMessage (m : List Byte) : Except Cause (BitVec 160) :=
  match finalState m with
  | .error e => .error e
  | .ok x => .ok (assembleDigest x)

end Sys2Proof.Machine
end

