-- ==== Sys2Proof/Safety.lean ====
section
/-! DEFINITION. What claims are stated in: the invariants of 10_state.md R40, R32 and 60_exceptions.md R146, when two states
cannot be told apart by the host (10_state.md R37, R41), the responses of a run and a good run
(46_control_and_pipeline.md R139). -/

namespace Sys2Proof.Machine

/-- What holds of the control registers in each sequencer state (10_state.md R27, R29, R32, R40;
60_exceptions.md R146). -/
def ControlInv (s : State) : Prop :=
  match s.fsm with
  | .idle => s.cause = .none ∧ s.t = 0 ∧ s.fin = .none ∧ s.bufLen = 0 ∧ s.len = 0
  | .absorb => s.cause = .none ∧ s.t = 0 ∧ s.fin = .none ∧ s.bufLen.toNat = s.len.toNat / 8 % 64
  | .done => s.cause = .none ∧ s.t = 0 ∧ s.fin = .none ∧ s.bufLen = 0
  | .fault =>
    s.cause ≠ .none ∧ s.cause ≠ .internalInvariantViolation ∧ s.t = 0 ∧ s.fin = .none ∧ s.bufLen.toNat ≤ 63
  | .load => s.cause = .none ∧ s.t = 0 ∧ s.bufLen = 64
  | .expand => s.cause = .none ∧ 16 ≤ s.t.toNat ∧ s.t.toNat ≤ 79 ∧ s.bufLen = 64
  | .round => s.cause = .none ∧ s.t.toNat ≤ 79 ∧ s.bufLen = 64
  | .fold => s.cause = .none ∧ s.t = 0 ∧ s.bufLen = 64

/-- The invariant of the machine: the buffer's canonical form, the control registers, whole bytes in `LEN`, and a message
Block in progress ends at a multiple of 512 bits. -/
structure Inv (s : State) : Prop where
  bufWf : s.buf.wf = true
  control : ControlInv s
  wholeBytes : s.len.toNat % 8 = 0
  wholeBlocks : s.fsm.ready = false → s.fin = .none → s.len.toNat % 512 = 0

/-- The data registers whose contents can still matter agree (10_state.md R37, R41): which they are depends on what the
sequencer does next. -/
def LiveDataEq (s u : State) : Prop :=
  match s.fsm with
  | .idle | .fault => True
  | .absorb => s.h = u.h ∧ ∀ j < s.bufLen.toNat, s.buf.read j = u.buf.read j
  | .done => s.h = u.h
  | .load => s.h = u.h ∧ ∀ j < 64, s.buf.read j = u.buf.read j
  | .expand => s.h = u.h ∧ s.work = u.work ∧ ∀ i < s.t.toNat, scheduleAt s.w i = scheduleAt u.w i
  | .round | .fold => s.h = u.h ∧ s.work = u.work ∧ s.w = u.w

/-- Two states with the same control registers, the same host and the same response port. -/
structure SameControl (s u : State) : Prop where
  fsm : s.fsm = u.fsm
  cause : s.cause = u.cause
  bufLen : s.bufLen = u.bufLen
  len : s.len = u.len
  t : s.t = u.t
  fin : s.fin = u.fin
  inputs : s.inputs = u.inputs
  rsp : s.rsp = u.rsp

/-- Two states that differ at most in dead data: the host cannot tell them apart. -/
structure Indistinguishable (s u : State) : Prop where
  control : SameControl s u
  live : LiveDataEq s u

/-- Two outcomes of a step that the host cannot tell apart. -/
def IndistinguishableOutcome : Host.Outcome State Fault Refusal → Host.Outcome State Fault Refusal → Prop
  | .next s, .next u => Indistinguishable s u
  | .fault r, .fault q => r = q
  | .refused r, .refused q => r = q
  | _, _ => False

/-- The responses of the first `n` steps, oldest first, up to a stop (46_control_and_pipeline.md R139). -/
def responses : Nat → State → List Response
  | 0, _ => []
  | n + 1, s =>
    match step s with
    | .next s' => s'.rsp.toList ++ responses n s'
    | _ => []

/-- A run has ended: its last word was accepted and the core is ready again (46_control_and_pipeline.md R139). DESIGN CHOICE,
log entry 18: here the host's list is used up and the core is ready, whatever the list held, a reset or a withdrawn word
included; R139 says nothing of a run in which reset was asserted. -/
def RunEnded (s : State) : Prop := s.inputs = [] ∧ s.fsm.ready = true

/-- The first `n` steps from `s` are a good run that ends in `s'`: no response has RERR = 1 and the final phase is not
FAULT (46_control_and_pipeline.md R139). DESIGN CHOICE, log entry 18: R139 says nothing of a run in which reset was
asserted; this definition classifies such a run like any other, so it can count as good. -/
def GoodRun (n : Nat) (s s' : State) : Prop :=
  Sys2Proof.core.run n s = .next s' ∧ RunEnded s' ∧ (∀ r ∈ responses n s, r.err = false) ∧ s'.fsm ≠ .fault

/-- What the host does to send a list of commands, each held until it is accepted (30_encoding.md R72). -/
def offers (p : List Instr) : List HostAction := p.map fun i => .command (encode i)

/-- The number of Blocks of a message of `n` bytes (41_padder.md R87). -/
def blockCount (n : Nat) : Nat := (n + 8) / 64 + 1

/-- The next-state relation: `step` answers `s'`. -/
def StepsTo (s s' : State) : Prop := step s = .next s'

end Sys2Proof.Machine
end

