-- ==== Sys2Proof/Certificates/Slice0/Obligations.lean ====
section
/-! DEFINITION. The statements for the provers. Each says which rule of spec/ it formalises, or which sections it rests on
where the spec itself marks the sentence as derived. -/

open Sys2Proof Sys2Proof.Machine

/-! ### Encoding and decoding -/

/-- 30_encoding.md R68: the decoder is total, and answers a command exactly for the words of `legal(cw)`, the predicate
written here over the numbers of the three fields; the command it answers has the word's opcode and operand. -/
def Obligations.DecoderAcceptsExactlyLegalWords : Prop :=
  ∀ cw : CommandWord,
    let op := cw.toNat / 4096
    let rsv := cw.toNat / 256 % 16
    let arg := cw.toNat % 256
    ((∃ i, decode cw = .ok i) ↔
      rsv = 0 ∧
        (((op = 0 ∨ op = 1 ∨ op = 3 ∨ op = 4) ∧ arg = 0) ∨ op = 2 ∨ (op = 5 ∧ arg ≤ 4) ∨ (op = 6 ∧ arg ≤ 19)
          ∨ (op = 7 ∧ arg ≤ 39))) ∧
    (legal cw = true ↔ ∃ i, decode cw = .ok i) ∧
    ∀ i, decode cw = .ok i → i.opcode.toNat = op ∧ i.operand.toNat = arg

/-- Every command with its operand at every value the encoding admits: decoding its word gives it back. -/
def Obligations.DecodeOfEncodeIsTheCommand : Prop :=
  ∀ i : Instr, i.wellFormed = true → decode (encode i) = .ok i

/-- The other direction: a word the decoder accepts is the word of the command it stands for, and that command is well
formed, so no two words stand for one command. -/
def Obligations.AcceptedWordIsTheWordOfItsCommand : Prop :=
  ∀ (cw : CommandWord) (i : Instr), decode cw = .ok i → encode i = cw ∧ i.wellFormed = true

/-- 30_encoding.md R66: the word of each row, written as a number. -/
def Obligations.EveryCommandHasTheWordOfItsRow : Prop :=
  ∀ x : Byte,
    (encode .nop).toNat = 0x0000 ∧ (encode .init).toNat = 0x1000 ∧ (encode (.absorb x)).toNat = 0x2000 + x.toNat ∧
    (encode .final).toNat = 0x3000 ∧ (encode .rdstat).toNat = 0x4000 ∧ (encode (.rdword x)).toNat = 0x5000 + x.toNat ∧
    (encode (.rdbyte x)).toNat = 0x6000 + x.toNat ∧ (encode (.rdhex x)).toNat = 0x7000 + x.toNat

/-- Words of 95_test_vectors.md V26, written out: the legal ones decode to their command, the illegal ones are rejected by
name. -/
def Obligations.VectorWordsDecodeAsListed : Prop :=
  decode 0x0000 = .ok .nop ∧ decode 0x1000 = .ok .init ∧ decode 0x2061 = .ok (.absorb 0x61) ∧ decode 0x3000 = .ok .final ∧
  decode 0x4000 = .ok .rdstat ∧ decode 0x5004 = .ok (.rdword 4) ∧ decode 0x6013 = .ok (.rdbyte 19) ∧
  decode 0x7027 = .ok (.rdhex 39) ∧ decode 0x0001 = .error .operandNotZero ∧ decode 0x2F61 = .error .reservedBits ∧
  decode 0x5005 = .error .indexOutOfRange ∧ decode 0x6014 = .error .indexOutOfRange ∧
  decode 0x7028 = .error .indexOutOfRange ∧ decode 0x8000 = .error .reservedOpcode

/-- 30_encoding.md R73: the pseudo-instructions HASH, ABSORBS, ABSORBX, DIGESTW, DIGESTB and DIGESTH expand to the words
listed there. -/
def Obligations.PseudoInstructionsExpandToListedWords : Prop :=
  ∀ (text : List Char) (bytes : List Byte),
    let absorbWords := fun m : List Byte => m.map fun b => BitVec.ofNat 16 (0x2000 + b.toNat)
    assembleProgram [.hash text] = 0x1000 :: (absorbWords (utf8Bytes text) ++ [0x3000]) ∧
    assembleProgram [.absorbs text] = absorbWords (utf8Bytes text) ∧
    assembleProgram [.absorbx bytes] = absorbWords bytes ∧
    assembleProgram [.digestw] = (List.range 5).map (fun i => BitVec.ofNat 16 (0x5000 + i)) ∧
    assembleProgram [.digestb] = (List.range 20).map (fun k => BitVec.ofNat 16 (0x6000 + k)) ∧
    assembleProgram [.digesth] = (List.range 40).map (fun j => BitVec.ofNat 16 (0x7000 + j))

/-! ### The host commands -/

/-- 46_control_and_pipeline.md R129: NOP answers `(0, 0)` and changes no state, in every phase (every ready state). -/
def Obligations.NopRespondsZeroAndChangesNothing : Prop :=
  encode .nop = 0x0000 ∧
    ∀ s : State, s.fsm.ready = true → exec .nop s = .next { s with rsp := some ⟨false, 0x00000000⟩ }

/-- 46_control_and_pipeline.md R130: INIT writes the IV and clears the control registers in every ready phase, leaves
everything else, answers `(0, 0)`, and twice in a row is the same as once. -/
def Obligations.InitBeginsAnIndependentComputation : Prop :=
  encode .init = 0x1000 ∧ ∀ s : State, s.fsm.ready = true →
    ∃ u : State, exec .init s = .next u ∧ exec .init u = .next u ∧
      u = { s with
        h := #v[0x67452301, 0xEFCDAB89, 0x98BADCFE, 0x10325476, 0xC3D2E1F0]
        len := 0, bufLen := 0, fin := .none, t := 0, cause := .none, fsm := .absorb
        rsp := some ⟨false, 0x00000000⟩ }

/-- 46_control_and_pipeline.md R131: RDSTAT answers RERR = 0 and the STATUS value, and changes nothing, in every phase
including FAULT. -/
def Obligations.RdstatRespondsStatus : Prop :=
  encode .rdstat = 0x4000 ∧ ∀ s : State, s.fsm.ready = true → ∃ d : Word,
    exec .rdstat s = .next { s with rsp := some ⟨false, d⟩ } ∧
    d.toNat = s.fsm.code.toNat % 4 + 4 * s.cause.code.toNat + 256 * s.bufLen.toNat

/-- 10_state.md R33: the fields of STATUS. -/
def Obligations.StatusFieldsReadAsSpecified : Prop :=
  ∀ s : State,
    ((status s).extractLsb' 0 2).toNat = s.fsm.code.toNat % 4 ∧
    ((status s).extractLsb' 2 3) = s.cause.code ∧
    ((status s).extractLsb' 5 3) = 0 ∧
    ((status s).extractLsb' 8 7) = s.bufLen ∧
    ((status s).extractLsb' 15 17) = 0

/-- 40_bit_encoder.md R80, every arm of its pseudocode. Served: the byte is stored at `BUF[BUFLEN]` and nowhere else,
`BUFLEN` and `LEN` count it, the 64th byte starts a Block computation, every other register keeps its value. -/
def Obligations.AbsorbStoresOneMessageByte : Prop :=
  ∀ (b : Byte) (s : State),
    (s.fsm = .fault → exec (.absorb b) s = .next { s with rsp := some ⟨true, s.cause.code.zeroExtend 32⟩ }) ∧
    (s.fsm = .idle ∨ s.fsm = .done →
      exec (.absorb b) s = .next { s with cause := .sequenceError, fsm := .fault, rsp := some ⟨true, 4⟩ }) ∧
    (s.fsm = .absorb → 2 ^ 64 - 1 < s.len.toNat + 8 →
      exec (.absorb b) s = .next { s with cause := .inputTooLarge, fsm := .fault, rsp := some ⟨true, 1⟩ }) ∧
    (s.fsm = .absorb → s.len.toNat + 8 ≤ 2 ^ 64 - 1 → s.bufLen.toNat ≤ 63 →
      ∃ u : State, exec (.absorb b) s = .next u ∧
        u = { s with buf := u.buf, bufLen := u.bufLen, len := u.len, fsm := u.fsm, rsp := some ⟨false, 0⟩ } ∧
        (∀ j, u.buf.read j = if j = s.bufLen.toNat then b else s.buf.read j) ∧
        u.bufLen.toNat = s.bufLen.toNat + 1 ∧
        u.len.toNat = s.len.toNat + 8 ∧
        u.fsm = if u.bufLen.toNat = 64 then .load else .absorb)

/-- 41_padder.md R91, every arm of its pseudocode. Served with `n = BUFLEN`: `0x80` at `BUF[n]`, zeros to `BUF[63]`, and for
`n <= 55` the big-endian length in `BUF[56..63]`; the bytes below `n` and every other register keep their values. -/
def Obligations.FinalPadsTheLastBlock : Prop :=
  ∀ s : State,
    (s.fsm = .fault → exec .final s = .next { s with rsp := some ⟨true, s.cause.code.zeroExtend 32⟩ }) ∧
    (s.fsm = .idle ∨ s.fsm = .done →
      exec .final s = .next { s with cause := .sequenceError, fsm := .fault, rsp := some ⟨true, 4⟩ }) ∧
    (s.fsm = .absorb → s.bufLen.toNat ≤ 63 →
      ∃ u : State, exec .final s = .next u ∧
        u = { s with buf := u.buf, fin := u.fin, bufLen := 64, fsm := .load, rsp := some ⟨false, 0⟩ } ∧
        u.fin = (if s.bufLen.toNat ≤ 55 then .last else .extra) ∧
        ∀ j, u.buf.read j =
          if j < s.bufLen.toNat ∨ 64 ≤ j then s.buf.read j
          else if j = s.bufLen.toNat then 0x80
          else if s.bufLen.toNat ≤ 55 ∧ 56 ≤ j then BitVec.ofNat 8 (s.len.toNat / 2 ^ (8 * (63 - j)))
          else 0x00)

/-- The stop of log entry 8 (the model's choice; 93_implementation_defined.md U5): in a hand-made state with `BUFLEN` 64 or
more in phase ABSORB, `BUF[BUFLEN]` does not exist, and ABSORB and FINAL stop. -/
def Obligations.AbsorbAndFinalStopOutsideTheBuffer : Prop :=
  ∀ (b : Byte) (s : State), s.fsm = .absorb → 64 ≤ s.bufLen.toNat →
    (s.len.toNat + 8 ≤ 2 ^ 64 - 1 → exec (.absorb b) s = .fault .bufferIndexOutOfRange) ∧
    exec .final s = .fault .bufferIndexOutOfRange

/-- 45_digest_assembler.md R124, every arm: the word in phase DONE, SequenceError in IDLE and ABSORB, the retained cause in
FAULT, and IllegalCommand, raised by the decoder, for a word with an index of 5 or more; nothing else changes. -/
def Obligations.RdwordReadsOneStateWord : Prop :=
  ∀ (i : Byte) (s : State),
    (s.fsm = .fault → i.toNat ≤ 4 →
      exec (.rdword i) s = .next { s with rsp := some ⟨true, s.cause.code.zeroExtend 32⟩ }) ∧
    (s.fsm.ready = true → s.fsm ≠ .fault → 5 ≤ i.toNat →
      acceptWord (encode (.rdword i)) s = .next { s with cause := .illegalCommand, fsm := .fault, rsp := some ⟨true, 3⟩ }) ∧
    (s.fsm = .idle ∨ s.fsm = .absorb → i.toNat ≤ 4 →
      exec (.rdword i) s = .next { s with cause := .sequenceError, fsm := .fault, rsp := some ⟨true, 4⟩ }) ∧
    (s.fsm = .done → ∀ hi : i.toNat < 5, exec (.rdword i) s = .next { s with rsp := some ⟨false, s.h[i.toNat]⟩ })

/-- 45_digest_assembler.md R125, every arm. -/
def Obligations.RdbyteReadsOneDigestByte : Prop :=
  ∀ (k : Byte) (s : State),
    (s.fsm = .fault → k.toNat ≤ 19 →
      exec (.rdbyte k) s = .next { s with rsp := some ⟨true, s.cause.code.zeroExtend 32⟩ }) ∧
    (s.fsm.ready = true → s.fsm ≠ .fault → 20 ≤ k.toNat →
      acceptWord (encode (.rdbyte k)) s = .next { s with cause := .illegalCommand, fsm := .fault, rsp := some ⟨true, 3⟩ }) ∧
    (s.fsm = .idle ∨ s.fsm = .absorb → k.toNat ≤ 19 →
      exec (.rdbyte k) s = .next { s with cause := .sequenceError, fsm := .fault, rsp := some ⟨true, 4⟩ }) ∧
    (s.fsm = .done → ∀ hk : k.toNat / 4 < 5,
      exec (.rdbyte k) s =
        .next { s with rsp := some ⟨false, BitVec.ofNat 32 (s.h[k.toNat / 4].toNat / 2 ^ (24 - 8 * (k.toNat % 4)) % 256)⟩ })

/-- 45_digest_assembler.md R126, every arm: the ASCII code of hexadecimal digit `j`, most significant nibble first. -/
def Obligations.RdhexReadsOneHexCharacter : Prop :=
  ∀ (j : Byte) (s : State),
    (s.fsm = .fault → j.toNat ≤ 39 →
      exec (.rdhex j) s = .next { s with rsp := some ⟨true, s.cause.code.zeroExtend 32⟩ }) ∧
    (s.fsm.ready = true → s.fsm ≠ .fault → 40 ≤ j.toNat →
      acceptWord (encode (.rdhex j)) s = .next { s with cause := .illegalCommand, fsm := .fault, rsp := some ⟨true, 3⟩ }) ∧
    (s.fsm = .idle ∨ s.fsm = .absorb → j.toNat ≤ 39 →
      exec (.rdhex j) s = .next { s with cause := .sequenceError, fsm := .fault, rsp := some ⟨true, 4⟩ }) ∧
    (s.fsm = .done → ∀ hj : j.toNat / 8 < 5,
      let v := s.h[j.toNat / 8].toNat / 2 ^ (28 - 4 * (j.toNat % 8)) % 16
      exec (.rdhex j) s =
        .next { s with rsp := some ⟨false, BitVec.ofNat 32 (if v ≤ 9 then 0x30 + v else 0x57 + v)⟩ })

/-! ### Faults -/

/-- 60_exceptions.md R147: in FAULT every command but NOP, RDSTAT and INIT is answered `(1, CAUSE)` and changes nothing, and
so is every word that is no command; NOP, RDSTAT and INIT run their meanings and answer with RERR = 0. -/
def Obligations.FaultPhaseKeepsTheFirstCause : Prop :=
  ∀ (s : State) (a : HostAction) (cw : CommandWord) (rest : List HostAction),
    s.fsm = .fault → s.inputs = a :: rest → a.offered = some cw →
    (cw ≠ 0x0000 → cw ≠ 0x1000 → cw ≠ 0x4000 →
      step s = .next { s with inputs := rest, rsp := some ⟨true, s.cause.code.zeroExtend 32⟩ }) ∧
    ∀ i : Instr, (cw = 0x0000 ∧ i = .nop) ∨ (cw = 0x1000 ∧ i = .init) ∨ (cw = 0x4000 ∧ i = .rdstat) →
      ∃ (u : State) (d : Word), step s = .next u ∧ exec i { s with inputs := rest, rsp := none } = .next u ∧
        u.rsp = some ⟨false, d⟩

/-- 60_exceptions.md R143: an accepted word that is not legal raises IllegalCommand in IDLE, ABSORB and DONE alike. -/
def Obligations.IllegalWordRaisesIllegalCommand : Prop :=
  ∀ (s : State) (a : HostAction) (cw : CommandWord) (rest : List HostAction),
    s.fsm = .idle ∨ s.fsm = .absorb ∨ s.fsm = .done → s.inputs = a :: rest → a.offered = some cw → legal cw = false →
      step s = .next { s with inputs := rest, cause := .illegalCommand, fsm := .fault, rsp := some ⟨true, 3⟩ }

/-- 60_exceptions.md R145: a legal command in a phase that does not serve it raises SequenceError. -/
def Obligations.CommandOutOfPhaseRaisesSequenceError : Prop :=
  ∀ (i : Instr) (s : State), i.wellFormed = true →
    ((s.fsm = .idle ∨ s.fsm = .done) ∧ (i = .final ∨ ∃ b, i = .absorb b)) ∨
      ((s.fsm = .idle ∨ s.fsm = .absorb) ∧ ((∃ n, i = .rdword n) ∨ (∃ n, i = .rdbyte n) ∨ ∃ n, i = .rdhex n)) →
    exec i s = .next { s with cause := .sequenceError, fsm := .fault, rsp := some ⟨true, 4⟩ }

/-- 60_exceptions.md R140: a step that takes a fault writes `CAUSE` and `FSM` and, when a command was being served, the
response `(1, code)`; everything else keeps its value. -/
def Obligations.TakingAFaultIsPrecise : Prop :=
  ∀ s u : State, StepsTo s u → s.fsm ≠ .fault → u.fsm = .fault →
    u.cause ≠ .none ∧
    u = { s with inputs := u.inputs, cause := u.cause, fsm := .fault, rsp := u.rsp } ∧
    (s.fsm.ready = true → u.rsp = some ⟨true, u.cause.code.zeroExtend 32⟩) ∧
    (s.fsm.ready = false → u.rsp = none)

/-- 60_exceptions.md R149: FAULT is left only by INIT, which starts a new computation and clears `CAUSE`, or by a reset
step. -/
def Obligations.FaultIsLeftOnlyByInitOrReset : Prop :=
  ∀ s u : State, StepsTo s u → s.fsm = .fault → u.fsm ≠ .fault →
    (s.inputs.head? = some .reset ∧ u.fsm = .idle ∧ u.cause = .none) ∨
    (offeredWord s = some 0x1000 ∧ u.fsm = .absorb ∧ u.cause = .none ∧ u.len = 0 ∧ u.bufLen = 0 ∧
      u.h = #v[0x67452301, 0xEFCDAB89, 0x98BADCFE, 0x10325476, 0xC3D2E1F0])

/-! ### The step and the ports -/

/-- The word offered to a ready core, held or for one step only, is decoded and run: the step is `exec` of it, the word taken off the host's list and
the response port not yet driven. -/
def Obligations.StepRunsTheDecodedCommand : Prop :=
  ∀ (s : State) (a : HostAction) (cw : CommandWord) (rest : List HostAction) (i : Instr),
    s.fsm.ready = true → s.inputs = a :: rest → a.offered = some cw → decode cw = .ok i →
      step s = exec i { s with inputs := rest, rsp := none }

/-- The host's table word, offered to a ready core, is what the very next step runs (log entry 6). -/
def Obligations.StepRunsTheOfferedTableWord : Prop :=
  ∀ (s : State) (nbits w : Nat) (i : Instr), s.fsm.ready = true → decodeTableWord nbits w = some i →
    step (s.withFetchWord nbits w) = exec i { s with rsp := none }

/-- 46_control_and_pipeline.md R128, 30_encoding.md R63: a command held by the host while the core is busy is not accepted and
stays offered; the step is the sequencer's internal step and gives no response. -/
def Obligations.BusyCoreLeavesTheCommandOffered : Prop :=
  ∀ (s : State) (cw : CommandWord) (rest : List HostAction),
    s.fsm.ready = false → s.inputs = .command cw :: rest →
      step s = internalStep { s with rsp := none } ∧ ∀ u, StepsTo s u → u.inputs = s.inputs ∧ u.rsp = none

/-- 70_reset_and_hazards.md section 3, the first row of the table of R172: a word the host offers to a busy core for one step
only, and then withdraws or changes, is simply not accepted. The step is the one it would be had the host offered
nothing, so nothing is lost inside the core, and there is no response. -/
def Obligations.WithdrawnWordIsNotAccepted : Prop :=
  ∀ (s : State) (cw : CommandWord) (rest : List HostAction), s.fsm.ready = false → s.inputs = .offer cw :: rest →
    step s = step { s with inputs := .nothing :: rest } ∧ ∀ u, StepsTo s u → u.inputs = rest ∧ u.rsp = none

/-- 60_exceptions.md R161: a ready core with no command offered does nothing. -/
def Obligations.ReadyCoreWithNoCommandDoesNothing : Prop :=
  ∀ s : State, s.fsm.ready = true → s.inputs = [] ∨ s.inputs.head? = some .nothing →
    step s = .next { s with inputs := s.inputs.tail, rsp := none }

/-- 70_reset_and_hazards.md R166: a reset step in any state, ready or busy, leaves the control registers at their reset
values, gives no response and accepts no command. Nothing is said of the data registers: they are free. -/
def Obligations.ResetStepWinsInEveryState : Prop :=
  ∀ (s : State) (rest : List HostAction), s.inputs = .reset :: rest →
    ∃ u : State, step s = .next u ∧ u.inputs = rest ∧ u.rsp = none ∧ u.fsm = .idle ∧ u.cause = .none ∧ u.bufLen = 0 ∧
      u.len = 0 ∧ u.fin = .none ∧ u.t = 0

/-- 10_state.md R39, both columns: the control registers and STATUS after reset and after INIT, and the data registers INIT
leaves alone. Of the data registers after reset (`unspecified`) nothing is said. -/
def Obligations.ResetAndInitLeaveTheTabledValues : Prop :=
  (State.reset.bufLen = 0 ∧ State.reset.len = 0 ∧ State.reset.t = 0 ∧ State.reset.fsm = .idle ∧ State.reset.fin = .none ∧
    State.reset.cause = .none ∧ status State.reset = 0x00000000) ∧
  ∀ s : State, s.fsm.ready = true →
    ∃ u : State, exec .init s = .next u ∧
      u.h = #v[0x67452301, 0xEFCDAB89, 0x98BADCFE, 0x10325476, 0xC3D2E1F0] ∧
      u.work = s.work ∧ u.w = s.w ∧ u.buf = s.buf ∧ u.bufLen = 0 ∧ u.len = 0 ∧ u.t = 0 ∧ u.fsm = .absorb ∧ u.fin = .none ∧
      u.cause = .none ∧ status u = 0x00000001

/-! ### The internal steps -/

/-- 42_block_splitter.md R100: LOAD packs the sixteen big-endian Words of `BUF` into `W[0..15]`, copies `H` to `a` to `e`, sets
`T` and goes to EXPAND; with `BUFLEN != 64` it takes InternalInvariantViolation and nothing else changes. -/
def Obligations.LoadSplitsTheBlock : Prop :=
  ∀ s : State, s.fsm = .load →
    (s.bufLen.toNat ≠ 64 → internalStep s = .next { s with cause := .internalInvariantViolation, fsm := .fault }) ∧
    (s.bufLen.toNat = 64 →
      ∃ u : State, internalStep s = .next u ∧
        u = { s with w := u.w, work := ⟨s.h[0], s.h[1], s.h[2], s.h[3], s.h[4]⟩, t := 16, fsm := .expand } ∧
        ∀ (i : Nat) (hi : i < 80), u.w[i].toNat =
          if i < 16 then
            (s.buf.read (4 * i)).toNat * 2 ^ 24 + (s.buf.read (4 * i + 1)).toNat * 2 ^ 16 +
              (s.buf.read (4 * i + 2)).toNat * 2 ^ 8 + (s.buf.read (4 * i + 3)).toNat
          else s.w[i].toNat)

/-- 43_message_scheduler.md R106: EXPAND writes one Schedule word and nothing else of `W`; after index 79 the rounds start. -/
def Obligations.ExpandWritesOneScheduleWord : Prop :=
  ∀ (s : State) (n : Nat) (_ : 16 ≤ n) (_ : n ≤ 79), s.fsm = .expand → s.t.toNat = n →
    ∃ u : State, internalStep s = .next u ∧
      u = { s with w := u.w, t := u.t, fsm := u.fsm } ∧
      (∀ (i : Nat) (hi : i < 80), u.w[i] =
        if i = n then (s.w[n - 3] ^^^ s.w[n - 8] ^^^ s.w[n - 14] ^^^ s.w[n - 16]).rotateLeft 1 else s.w[i]) ∧
      u.t.toNat = (if n = 79 then 0 else n + 1) ∧
      u.fsm = if n = 79 then .round else .expand

/-- 44_compressor.md R118 with R112 to R114: one round, all five registers from the old values, the sum modulo 2^32; after
round 79 FOLD follows. The constants and functions are those the spec supplies from general knowledge (G2 to G4,
log entry 12). -/
def Obligations.RoundUpdatesTheWorkingRegisters : Prop :=
  ∀ (s : State) (n : Nat) (_ : n ≤ 79), s.fsm = .round → s.t.toNat = n →
    ∃ u : State, internalStep s = .next u ∧
      u = { s with work := u.work, t := u.t, fsm := u.fsm } ∧
      u.work.a.toNat =
        ((s.work.a.rotateLeft 5).toNat + (roundFunction n s.work.b s.work.c s.work.d).toNat + s.work.e.toNat +
          (roundConstant n).toNat + s.w[n].toNat) % 2 ^ 32 ∧
      u.work.b = s.work.a ∧ u.work.c = s.work.b.rotateLeft 30 ∧ u.work.d = s.work.c ∧ u.work.e = s.work.d ∧
      u.t.toNat = (if n = 79 then 0 else n + 1) ∧
      u.fsm = if n = 79 then .fold else .round

/-- 44_compressor.md R112: the four round constants, by group of twenty rounds (general knowledge of the spec, G2). -/
def Obligations.RoundConstantsByGroup : Prop :=
  ∀ t : Nat, t ≤ 79 →
    (t ≤ 19 → roundConstant t = 0x5A827999) ∧ (20 ≤ t → t ≤ 39 → roundConstant t = 0x6ED9EBA1) ∧
    (40 ≤ t → t ≤ 59 → roundConstant t = 0x8F1BBCDC) ∧ (60 ≤ t → roundConstant t = 0xCA62C1D6)

/-- 44_compressor.md R113: each function works on every bit position independently, by the truth table of its group (general
knowledge of the spec, G3). -/
def Obligations.RoundFunctionsFollowTheTruthTable : Prop :=
  ∀ (t : Nat) (x y z : Word) (i : Nat), t ≤ 79 → i < 32 →
    (roundFunction t x y z).getLsbD i =
      if t ≤ 19 then (if x.getLsbD i then y.getLsbD i else z.getLsbD i)
      else if 40 ≤ t ∧ t ≤ 59 then
        decide (2 ≤ (x.getLsbD i).toNat + (y.getLsbD i).toNat + (z.getLsbD i).toNat)
      else decide (((x.getLsbD i).toNat + (y.getLsbD i).toNat + (z.getLsbD i).toNat) % 2 = 1)

/-- 44_compressor.md R119 and R120, one atomic step: the working registers are added into `H` modulo 2^32, and `FIN` decides
what follows; in the EXTRA case `BUF` holds 56 zero bytes and the big-endian length. -/
def Obligations.FoldAddsIntoStateAndContinues : Prop :=
  ∀ s : State, s.fsm = .fold →
    ∃ u : State, internalStep s = .next u ∧
      u = { s with h := u.h, buf := u.buf, bufLen := u.bufLen, fin := u.fin, fsm := u.fsm } ∧
      u.h[0].toNat = (s.h[0].toNat + s.work.a.toNat) % 2 ^ 32 ∧ u.h[1].toNat = (s.h[1].toNat + s.work.b.toNat) % 2 ^ 32 ∧
      u.h[2].toNat = (s.h[2].toNat + s.work.c.toNat) % 2 ^ 32 ∧ u.h[3].toNat = (s.h[3].toNat + s.work.d.toNat) % 2 ^ 32 ∧
      u.h[4].toNat = (s.h[4].toNat + s.work.e.toNat) % 2 ^ 32 ∧
      (s.fin = .none → u.fsm = .absorb ∧ u.fin = .none ∧ u.bufLen = 0 ∧ u.buf = s.buf) ∧
      (s.fin = .last → u.fsm = .done ∧ u.fin = .none ∧ u.bufLen = 0 ∧ u.buf = s.buf) ∧
      (s.fin = .extra → u.fsm = .load ∧ u.fin = .last ∧ u.bufLen = 64 ∧
        ∀ j, u.buf.read j =
          if j < 56 then 0x00 else if j < 64 then BitVec.ofNat 8 (s.len.toNat / 2 ^ (8 * (63 - j))) else s.buf.read j)

/-- The stop of log entry 9 (the model's choice; 93_implementation_defined.md U5): a hand-made `T` outside the Schedule. -/
def Obligations.ExpandAndRoundStopOutsideTheSchedule : Prop :=
  ∀ s : State,
    (s.fsm = .expand → s.t.toNat < 16 ∨ 79 < s.t.toNat → internalStep s = .fault .scheduleIndexOutOfRange) ∧
    (s.fsm = .round → 79 < s.t.toNat → internalStep s = .fault .scheduleIndexOutOfRange)

/-! ### Whole-machine rules -/

/-- 10_state.md R22: `H` is written by INIT and by the FOLD step, and (10_state.md R38) made unspecified by reset, by
nothing else. -/
def Obligations.StateRegistersAreWrittenOnlyByInitAndFold : Prop :=
  ∀ s u : State, StepsTo s u → u.h ≠ s.h →
    s.inputs.head? = some .reset ∨ (s.fsm.ready = true ∧ offeredWord s = some 0x1000) ∨ s.fsm = .fold

/-- 10_state.md R24, R25, R26: which transitions write the working registers, the Schedule and the buffer (reset apart, which
leaves them unspecified). -/
def Obligations.DataRegistersAreWrittenOnlyByTheirTransitions : Prop :=
  ∀ s u : State, StepsTo s u → s.inputs.head? ≠ some .reset →
    (u.work ≠ s.work → s.fsm = .load ∨ s.fsm = .round) ∧
    (u.w ≠ s.w → s.fsm = .load ∨ s.fsm = .expand) ∧
    (u.buf ≠ s.buf →
      (s.fsm = .absorb ∧ ((∃ b, offeredWord s = some (encode (.absorb b))) ∨ offeredWord s = some (encode .final))) ∨
      (s.fsm = .fold ∧ s.fin = .extra))

/-- 46_control_and_pipeline.md section 4, the rows of the transition table for the busy states, with the values of `T` and
`FIN` they give (a busy state that is not reset). -/
def Obligations.BusyStatesFollowTheTransitionTable : Prop :=
  ∀ s u : State, StepsTo s u → s.inputs.head? ≠ some .reset →
    (s.fsm = .load → s.bufLen = 64 → u.fsm = .expand ∧ u.t = 16) ∧
    (s.fsm = .load → s.bufLen ≠ 64 → u.fsm = .fault ∧ u.cause = .internalInvariantViolation) ∧
    (s.fsm = .expand → s.t.toNat < 79 → u.fsm = .expand ∧ u.t = s.t + 1) ∧
    (s.fsm = .expand → s.t.toNat = 79 → u.fsm = .round ∧ u.t = 0) ∧
    (s.fsm = .round → s.t.toNat < 79 → u.fsm = .round ∧ u.t = s.t + 1) ∧
    (s.fsm = .round → s.t.toNat = 79 → u.fsm = .fold ∧ u.t = 0) ∧
    (s.fsm = .fold → s.fin = .none → u.fsm = .absorb) ∧
    (s.fsm = .fold → s.fin = .extra → u.fsm = .load ∧ u.fin = .last) ∧
    (s.fsm = .fold → s.fin = .last → u.fsm = .done ∧ u.fin = .none)

/-- The invariant holds right after reset. -/
def Obligations.InvariantHoldsAtReset : Prop := Inv State.reset

/-- 10_state.md section 10, 60_exceptions.md section 2 (R146): every step keeps the invariant, whatever the host does. It says
among other things that `CAUSE` is set exactly in FAULT, that InternalInvariantViolation is never taken, that a ready core
has `T = 0`, `FIN = NONE`, `BUFLEN <= 63`, and that in phase ABSORB `BUFLEN = (LEN / 8) mod 64`. -/
def Obligations.EveryStepKeepsTheInvariant : Prop :=
  ∀ s u : State, Inv s → StepsTo s u → Inv u

/-- Under the invariant the machine never stops: the two `Machine.Fault`s are unreachable. -/
def Obligations.MachineNeverStopsUnderTheInvariant : Prop :=
  ∀ s : State, Inv s → ∃ u, StepsTo s u

/-- 10_state.md section 10: the readable consequences of the invariant (10_state.md R40, R32). -/
def Obligations.ReadyCoreIsQuiescent : Prop :=
  ∀ s : State, Inv s →
    (s.cause ≠ .none ↔ s.fsm = .fault) ∧ s.cause ≠ .internalInvariantViolation ∧
    (s.fsm.ready = true → s.t = 0 ∧ s.fin = .none ∧ s.bufLen.toNat ≤ 63 ∧ s.len.toNat % 8 = 0) ∧
    (s.fsm = .absorb → s.bufLen.toNat = s.len.toNat / 8 % 64) ∧
    (s.fsm = .done → s.bufLen = 0) ∧
    (s.fsm.ready = false → s.bufLen.toNat = 64)

/-- 44_compressor.md section 5: one Block computation is `compress`. From any state with `FSM = LOAD`, `BUFLEN = 64`, with no
reset in between, the core runs 146 internal steps and `H` is then `compress(H, expand(M))` of the Block in `BUF`; `FIN`
decides what follows, no response is given and no command is accepted meanwhile. -/
def Obligations.BlockComputationIsCompress : Prop :=
  ∀ s : State, s.fsm = .load → s.bufLen.toNat = 64 → HostAction.reset ∉ s.inputs.take 146 →
    (∀ k < 146, ∃ v, Sys2Proof.core.run k s = .next v ∧ (State.fsm v).ready = false) ∧
    responses 146 s = [] ∧
    ∃ u : State, Sys2Proof.core.run 146 s = .next u ∧
      u.h = compress s.h (expandBlock s.buf.blockWords) ∧ u.len = s.len ∧ u.cause = s.cause ∧ u.t = 0 ∧
      (s.fin = .none → u.fsm = .absorb ∧ u.bufLen = 0 ∧ u.fin = .none) ∧
      (s.fin = .last → u.fsm = .done ∧ u.bufLen = 0 ∧ u.fin = .none) ∧
      (s.fin = .extra → u.fsm = .load ∧ u.bufLen = 64 ∧ u.fin = .last)

/-- 46_control_and_pipeline.md section 4: every busy episode ends. From a busy state of the invariant, with no reset, the core
is ready after at most 292 steps, whatever the host offers. -/
def Obligations.BusyEpisodeEndsWithin292Steps : Prop :=
  ∀ s : State, Inv s → s.fsm.ready = false → HostAction.reset ∉ s.inputs.take 292 →
    ∃ n ≤ 292, ∃ u : State, Sys2Proof.core.run n s = .next u ∧ u.fsm.ready = true ∧ u.fsm ≠ .fault

/-- 46_control_and_pipeline.md sections 3 and 4: the command sequence computes `hash`. From any ready state, the program
INIT, one ABSORB per byte of `m`, FINAL, each word held until accepted and with no reset, takes `n + 2` command steps and
146 internal steps per Block, raises no fault, answers `(0, 0)` to every word, and ends in phase DONE with
`assemble(H) = hash(m)`; the reads then give the bytes and characters of that digest. -/
def Obligations.CommandSequenceComputesTheHash : Prop :=
  ∀ (m : List Byte) (s : State), 8 * m.length < 2 ^ 64 → s.fsm.ready = true → s.inputs = offers (messageCommands m) →
    let n := m.length + 2 + 146 * blockCount m.length
    ∃ u : State, GoodRun n s u ∧ u.fsm = .done ∧ hashMessage m = .ok (assembleDigest u.h) ∧
      responses n s = List.replicate (m.length + 2) ⟨false, 0⟩ ∧
      (∀ i : Byte, i.toNat ≤ 4 → exec (.rdword i) u =
        .next { u with rsp := some ⟨false, BitVec.ofNat 32 ((assembleDigest u.h).toNat / 2 ^ (128 - 32 * i.toNat))⟩ }) ∧
      (∀ k : Byte, k.toNat ≤ 19 → exec (.rdbyte k) u =
        .next { u with rsp := some ⟨false,
          BitVec.ofNat 32 ((assembleDigest u.h).toNat / 2 ^ (152 - 8 * k.toNat) % 256)⟩ }) ∧
      (∀ j : Byte, j.toNat ≤ 39 →
        let v := (assembleDigest u.h).toNat / 2 ^ (156 - 4 * j.toNat) % 16
        exec (.rdhex j) u =
          .next { u with rsp := some ⟨false, BitVec.ofNat 32 (if v ≤ 9 then 0x30 + v else 0x57 + v)⟩ })

/-- 41_padder.md section 2: the internal steps FINAL starts, 146 for `BUFLEN <= 55` and 292 otherwise, end in phase DONE with
`H` folded over the padded Block, and over the extra Block where there is one. -/
def Obligations.FinalRunsItsBlocksToDone : Prop :=
  ∀ s : State, s.fsm = .absorb → s.bufLen.toNat ≤ 63 → s.inputs = [.command (encode .final)] →
    let n := if s.bufLen.toNat ≤ 55 then 146 else 292
    let p := padBlock s.buf s.bufLen.toNat s.len
    ∃ u : State, Sys2Proof.core.run (1 + n) s = .next u ∧ responses (1 + n) s = [⟨false, 0⟩] ∧
      u.fsm = .done ∧ u.fin = .none ∧ u.bufLen = 0 ∧ u.t = 0 ∧ u.len = s.len ∧
      u.h = if s.bufLen.toNat ≤ 55 then compress s.h (expandBlock p.blockWords)
        else compress (compress s.h (expandBlock p.blockWords)) (expandBlock (extraBlock p s.len).blockWords)

/-- 10_state.md section 10 (R41) and section 8: no value that reset leaves unspecified is ever read. Two states in phase IDLE
that differ only in data registers (`H`, `a` to `e`, `W`, `BUF`) answer every host alike, for ever. -/
def Obligations.UnspecifiedResetValuesAreNeverRead : Prop :=
  ∀ s u : State, s.fsm = .idle → SameControl s u → ∀ n, responses n s = responses n u

/-- 46_control_and_pipeline.md section 3 (R134): what follows an INIT depends on nothing that happened before it. Two ready
states, alike only in what the host does next, which begins with INIT, answer alike for ever. -/
def Obligations.ComputationsAreIndependent : Prop :=
  ∀ (s u : State) (a b : HostAction) (rest : List HostAction), s.fsm.ready = true → u.fsm.ready = true →
    s.inputs = a :: rest → u.inputs = b :: rest → a.offered = some 0x1000 → b.offered = some 0x1000 → ∀ n, responses n s = responses n u

/-- The step-level form of the same: two states that differ at most in dead data take steps that differ at most in dead
data. -/
def Obligations.DeadDataStaysDead : Prop :=
  ∀ s u : State, Indistinguishable s u → IndistinguishableOutcome (step s) (step u)

/-! ### The pure functions -/

/-- 40_bit_encoder.md R76, R77: the Bitstream of a Message, most significant bit of each byte first. -/
def Obligations.BitEncoderKeepsBitOrder : Prop :=
  ∀ m : List Byte, (bitEncode m).length = 8 * m.length ∧
    ∀ (j i : Nat) (hj : j < m.length), i ≤ 7 → (bitEncode m)[8 * j + i]? = some (m[j].getLsbD (7 - i))

/-- 41_padder.md R83, R84: `pad` appends a `1` bit, the minimal number `k` of zero bits, and the 64-bit big-endian length, and
fails exactly when the length does not fit in 64 bits. -/
def Obligations.PadAppendsOneZerosAndLength : Prop :=
  ∀ s : List Bool,
    (2 ^ 64 ≤ s.length → padBits s = .error .inputTooLarge) ∧
    (s.length < 2 ^ 64 →
      ∃ (k : Nat) (suffix : List Bool), padBits s = .ok (s ++ [true] ++ List.replicate k false ++ suffix) ∧
        (k : Int) = (447 - (s.length : Int)) % 512 ∧ (s.length + 1 + k + 64) % 512 = 0 ∧ (∀ k', (s.length + 1 + k' + 64) % 512 = 0 → k ≤ k') ∧
        suffix.length = 64 ∧ bitsValue suffix = s.length)

/-- 41_padder.md section 1: the byte form of padding for a Message of whole bytes. -/
def Obligations.PadInBytes : Prop :=
  ∀ m : List Byte, 8 * m.length < 2 ^ 64 →
    let r := m.length % 64
    let z := if r ≤ 55 then 55 - r else 119 - r
    padBits (bitEncode m) =
      .ok (bitEncode (m ++ [0x80] ++ List.replicate z 0x00 ++ be64bytes (BitVec.ofNat 64 (8 * m.length)))) ∧
    m.length + 1 + z + 8 = 64 * blockCount m.length

/-- 42_block_splitter.md section 1 (R96, R97; the last clause, that the Words of a stream of whole bytes are `be32` of four
bytes, is the sentence of R97 that the spec marks as derived from 40_bit_encoder.md R77 and 00_scope.md R15): `split` fails exactly on a length that is no positive multiple of 512, and otherwise gives
the Blocks in stream order, each as sixteen big-endian Words. -/
def Obligations.SplitGivesBigEndianWords : Prop :=
  (∀ p : List Bool, (∃ bs, splitBlocks p = .ok bs) ↔ 0 < p.length ∧ p.length % 512 = 0) ∧
  (∀ p : List Bool, p.length = 0 ∨ p.length % 512 ≠ 0 → splitBlocks p = .error .internalInvariantViolation) ∧
  (∀ (p : List Bool) (bs : List (List Word)), splitBlocks p = .ok bs →
    512 * bs.length = p.length ∧ (∀ b ∈ bs, b.length = 16) ∧
    ∀ j i r, j < bs.length → i < 16 → r < 32 →
      ((bs.getD j []).getD i 0).getLsbD (31 - r) = p.getD (512 * j + 32 * i + r) false) ∧
  ∀ (bytes : List Byte) (n : Nat), bytes.length = 64 * (n + 1) →
    splitBlocks (bitEncode bytes) =
      .ok ((List.range (n + 1)).map fun j => (List.range 16).map fun i =>
        be32 (bytes.getD (64 * j + 4 * i) 0) (bytes.getD (64 * j + 4 * i + 1) 0) (bytes.getD (64 * j + 4 * i + 2) 0)
          (bytes.getD (64 * j + 4 * i + 3) 0))

/-- 43_message_scheduler.md R103, R104: the recurrence of the Schedule. -/
def Obligations.ExpandFollowsTheRecurrence : Prop :=
  ∀ m : List Word, m.length = 16 →
    (expandBlock m).length = 80 ∧
    (∀ i < 16, (expandBlock m)[i]? = m[i]?) ∧
    ∀ i, 16 ≤ i → i < 80 →
      (expandBlock m)[i]? =
        some (((expandBlock m).getD (i - 3) 0 ^^^ (expandBlock m).getD (i - 8) 0 ^^^ (expandBlock m).getD (i - 14) 0 ^^^
          (expandBlock m).getD (i - 16) 0).rotateLeft 1)

/-- 44_compressor.md R115: `compress` runs the 80 rounds from the State and adds their result to it, component by component.
`r` is the sequence of the working registers, fixed by its first value and by the round. -/
def Obligations.CompressAddsEightyRounds : Prop :=
  ∀ (h : Vector Word 5) (s : List Word), s.length = 80 →
    ∃ r : Nat → Working,
      r 0 = ⟨h[0], h[1], h[2], h[3], h[4]⟩ ∧
      (∀ t < 80,
        r (t + 1) =
          ⟨(r t).a.rotateLeft 5 + roundFunction t (r t).b (r t).c (r t).d + (r t).e + roundConstant t + s.getD t 0,
            (r t).a, (r t).b.rotateLeft 30, (r t).c, (r t).d⟩) ∧
      compress h s = #v[h[0] + (r 80).a, h[1] + (r 80).b, h[2] + (r 80).c, h[3] + (r 80).d, h[4] + (r 80).e]

/-- 45_digest_assembler.md R122: the Digest is the five registers in order, `H[0]` most significant, and digest byte `k` is
its `k`-th byte from the top. -/
def Obligations.AssembleConcatenatesTheRegisters : Prop :=
  ∀ h : Vector Word 5,
    (assembleDigest h).toNat =
      h[0].toNat * 2 ^ 128 + h[1].toNat * 2 ^ 96 + h[2].toNat * 2 ^ 64 + h[3].toNat * 2 ^ 32 + h[4].toNat ∧
    ∀ k ≤ 19, (digestByte h k).toNat = (assembleDigest h).toNat / 2 ^ (152 - 8 * k) % 256

/-- 45_digest_assembler.md section 2: the three views agree. -/
def Obligations.DigestViewsAgree : Prop :=
  ∀ h : Vector Word 5,
    (∀ i ≤ 4, ∀ r ≤ 3, (digestByte h (4 * i + r)).toNat = (digestWord h i).toNat / 2 ^ (24 - 8 * r) % 256) ∧
    ∀ k ≤ 19, digestHex h (2 * k) = hexCode ((digestByte h k).extractLsb' 4 4) ∧
      digestHex h (2 * k + 1) = hexCode ((digestByte h k).extractLsb' 0 4)

/-- 46_control_and_pipeline.md R133: `hash` fails exactly when the bit length does not fit in 64 bits, and then with
InputTooLarge. -/
def Obligations.HashFailsOnlyOnOverlongInput : Prop :=
  ∀ m : List Byte,
    (2 ^ 64 ≤ 8 * m.length → hashMessage m = .error .inputTooLarge) ∧
    (8 * m.length < 2 ^ 64 → ∃ d, hashMessage m = .ok d)

/-- 00_scope.md R14: the operators on Words as numbers. -/
def Obligations.WordOperatorsAsNumbers : Prop :=
  ∀ (x y : Word) (n : Nat), 0 < n → n < 32 →
    (rotl x n).toNat = x.toNat * 2 ^ n % 2 ^ 32 + x.toNat / 2 ^ (32 - n) ∧
    (x + y).toNat = (x.toNat + y.toNat) % 2 ^ 32 ∧
    (~~~x).toNat = 0xFFFFFFFF - x.toNat ∧
    ∀ i < 32,
      (x ^^^ y).getLsbD i = (x.getLsbD i != y.getLsbD i) ∧
      (x &&& y).getLsbD i = (x.getLsbD i && y.getLsbD i) ∧
      (x ||| y).getLsbD i = (x.getLsbD i || y.getLsbD i)

/-- 00_scope.md R15: big-endian packing. -/
def Obligations.BigEndianPacking : Prop :=
  (∀ b0 b1 b2 b3 : Byte,
    (be32 b0 b1 b2 b3).toNat = b0.toNat * 2 ^ 24 + b1.toNat * 2 ^ 16 + b2.toNat * 2 ^ 8 + b3.toNat ∧
    be32bytes (be32 b0 b1 b2 b3) = [b0, b1, b2, b3]) ∧
  ∀ l : BitVec 64, (be64bytes l).length = 8 ∧ ((be64bytes l).foldl (fun acc b => 256 * acc + b.toNat) 0) = l.toNat
end

