-- ==== Sys2Proof/Laws/State.lean ====
section
/-! SUPPORT. One lemma per field per update of `State`, each true by `rfl`, so that no later proof unfolds a record update. -/

namespace Sys2Proof.Machine

/-! ### `respond` -/

@[simp] theorem respond_h (err : Bool) (data : Word) (s : State) : (respond err data s).h = s.h := rfl
@[simp] theorem respond_work (err : Bool) (data : Word) (s : State) : (respond err data s).work = s.work := rfl
@[simp] theorem respond_w (err : Bool) (data : Word) (s : State) : (respond err data s).w = s.w := rfl
@[simp] theorem respond_buf (err : Bool) (data : Word) (s : State) : (respond err data s).buf = s.buf := rfl
@[simp] theorem respond_bufLen (err : Bool) (data : Word) (s : State) : (respond err data s).bufLen = s.bufLen := rfl
@[simp] theorem respond_len (err : Bool) (data : Word) (s : State) : (respond err data s).len = s.len := rfl
@[simp] theorem respond_t (err : Bool) (data : Word) (s : State) : (respond err data s).t = s.t := rfl
@[simp] theorem respond_fsm (err : Bool) (data : Word) (s : State) : (respond err data s).fsm = s.fsm := rfl
@[simp] theorem respond_fin (err : Bool) (data : Word) (s : State) : (respond err data s).fin = s.fin := rfl
@[simp] theorem respond_cause (err : Bool) (data : Word) (s : State) : (respond err data s).cause = s.cause := rfl
@[simp] theorem respond_inputs (err : Bool) (data : Word) (s : State) : (respond err data s).inputs = s.inputs := rfl
@[simp] theorem respond_rsp (err : Bool) (data : Word) (s : State) : (respond err data s).rsp = some ⟨err, data⟩ := rfl
@[simp] theorem respond_draws (err : Bool) (data : Word) (s : State) : (respond err data s).draws = s.draws := rfl

/-! ### `raiseFault`, with and without a response -/

@[simp] theorem raiseFault_serving_h (x : Cause) (s : State) : (raiseFault true x s).h = s.h := rfl
@[simp] theorem raiseFault_serving_work (x : Cause) (s : State) : (raiseFault true x s).work = s.work := rfl
@[simp] theorem raiseFault_serving_w (x : Cause) (s : State) : (raiseFault true x s).w = s.w := rfl
@[simp] theorem raiseFault_serving_buf (x : Cause) (s : State) : (raiseFault true x s).buf = s.buf := rfl
@[simp] theorem raiseFault_serving_bufLen (x : Cause) (s : State) : (raiseFault true x s).bufLen = s.bufLen := rfl
@[simp] theorem raiseFault_serving_len (x : Cause) (s : State) : (raiseFault true x s).len = s.len := rfl
@[simp] theorem raiseFault_serving_t (x : Cause) (s : State) : (raiseFault true x s).t = s.t := rfl
@[simp] theorem raiseFault_serving_fsm (x : Cause) (s : State) : (raiseFault true x s).fsm = .fault := rfl
@[simp] theorem raiseFault_serving_fin (x : Cause) (s : State) : (raiseFault true x s).fin = s.fin := rfl
@[simp] theorem raiseFault_serving_cause (x : Cause) (s : State) : (raiseFault true x s).cause = x := rfl
@[simp] theorem raiseFault_serving_inputs (x : Cause) (s : State) : (raiseFault true x s).inputs = s.inputs := rfl
@[simp] theorem raiseFault_serving_rsp (x : Cause) (s : State) : (raiseFault true x s).rsp = some ⟨true, x.data⟩ := rfl
@[simp] theorem raiseFault_serving_draws (x : Cause) (s : State) : (raiseFault true x s).draws = s.draws := rfl

@[simp] theorem raiseFault_internal_h (x : Cause) (s : State) : (raiseFault false x s).h = s.h := rfl
@[simp] theorem raiseFault_internal_work (x : Cause) (s : State) : (raiseFault false x s).work = s.work := rfl
@[simp] theorem raiseFault_internal_w (x : Cause) (s : State) : (raiseFault false x s).w = s.w := rfl
@[simp] theorem raiseFault_internal_buf (x : Cause) (s : State) : (raiseFault false x s).buf = s.buf := rfl
@[simp] theorem raiseFault_internal_bufLen (x : Cause) (s : State) : (raiseFault false x s).bufLen = s.bufLen := rfl
@[simp] theorem raiseFault_internal_len (x : Cause) (s : State) : (raiseFault false x s).len = s.len := rfl
@[simp] theorem raiseFault_internal_t (x : Cause) (s : State) : (raiseFault false x s).t = s.t := rfl
@[simp] theorem raiseFault_internal_fsm (x : Cause) (s : State) : (raiseFault false x s).fsm = .fault := rfl
@[simp] theorem raiseFault_internal_fin (x : Cause) (s : State) : (raiseFault false x s).fin = s.fin := rfl
@[simp] theorem raiseFault_internal_cause (x : Cause) (s : State) : (raiseFault false x s).cause = x := rfl
@[simp] theorem raiseFault_internal_inputs (x : Cause) (s : State) : (raiseFault false x s).inputs = s.inputs := rfl
@[simp] theorem raiseFault_internal_rsp (x : Cause) (s : State) : (raiseFault false x s).rsp = s.rsp := rfl
@[simp] theorem raiseFault_internal_draws (x : Cause) (s : State) : (raiseFault false x s).draws = s.draws := rfl

/-! ### `answerRetained` -/

@[simp] theorem answerRetained_h (s : State) : (answerRetained s).h = s.h := rfl
@[simp] theorem answerRetained_work (s : State) : (answerRetained s).work = s.work := rfl
@[simp] theorem answerRetained_w (s : State) : (answerRetained s).w = s.w := rfl
@[simp] theorem answerRetained_buf (s : State) : (answerRetained s).buf = s.buf := rfl
@[simp] theorem answerRetained_bufLen (s : State) : (answerRetained s).bufLen = s.bufLen := rfl
@[simp] theorem answerRetained_len (s : State) : (answerRetained s).len = s.len := rfl
@[simp] theorem answerRetained_t (s : State) : (answerRetained s).t = s.t := rfl
@[simp] theorem answerRetained_fsm (s : State) : (answerRetained s).fsm = s.fsm := rfl
@[simp] theorem answerRetained_fin (s : State) : (answerRetained s).fin = s.fin := rfl
@[simp] theorem answerRetained_cause (s : State) : (answerRetained s).cause = s.cause := rfl
@[simp] theorem answerRetained_inputs (s : State) : (answerRetained s).inputs = s.inputs := rfl
@[simp] theorem answerRetained_rsp (s : State) : (answerRetained s).rsp = some ⟨true, s.cause.data⟩ := rfl
@[simp] theorem answerRetained_draws (s : State) : (answerRetained s).draws = s.draws := rfl

/-! ### `beginComputation` -/

@[simp] theorem beginComputation_h (s : State) : (beginComputation s).h = initialState := rfl
@[simp] theorem beginComputation_work (s : State) : (beginComputation s).work = s.work := rfl
@[simp] theorem beginComputation_w (s : State) : (beginComputation s).w = s.w := rfl
@[simp] theorem beginComputation_buf (s : State) : (beginComputation s).buf = s.buf := rfl
@[simp] theorem beginComputation_bufLen (s : State) : (beginComputation s).bufLen = 0 := rfl
@[simp] theorem beginComputation_len (s : State) : (beginComputation s).len = 0 := rfl
@[simp] theorem beginComputation_t (s : State) : (beginComputation s).t = 0 := rfl
@[simp] theorem beginComputation_fsm (s : State) : (beginComputation s).fsm = .absorb := rfl
@[simp] theorem beginComputation_fin (s : State) : (beginComputation s).fin = .none := rfl
@[simp] theorem beginComputation_cause (s : State) : (beginComputation s).cause = .none := rfl
@[simp] theorem beginComputation_inputs (s : State) : (beginComputation s).inputs = s.inputs := rfl
@[simp] theorem beginComputation_rsp (s : State) : (beginComputation s).rsp = s.rsp := rfl
@[simp] theorem beginComputation_draws (s : State) : (beginComputation s).draws = s.draws := rfl

/-! ### `beginStep` -/

@[simp] theorem beginStep_h (rest : List HostAction) (s : State) : (beginStep rest s).h = s.h := rfl
@[simp] theorem beginStep_work (rest : List HostAction) (s : State) : (beginStep rest s).work = s.work := rfl
@[simp] theorem beginStep_w (rest : List HostAction) (s : State) : (beginStep rest s).w = s.w := rfl
@[simp] theorem beginStep_buf (rest : List HostAction) (s : State) : (beginStep rest s).buf = s.buf := rfl
@[simp] theorem beginStep_bufLen (rest : List HostAction) (s : State) : (beginStep rest s).bufLen = s.bufLen := rfl
@[simp] theorem beginStep_len (rest : List HostAction) (s : State) : (beginStep rest s).len = s.len := rfl
@[simp] theorem beginStep_t (rest : List HostAction) (s : State) : (beginStep rest s).t = s.t := rfl
@[simp] theorem beginStep_fsm (rest : List HostAction) (s : State) : (beginStep rest s).fsm = s.fsm := rfl
@[simp] theorem beginStep_fin (rest : List HostAction) (s : State) : (beginStep rest s).fin = s.fin := rfl
@[simp] theorem beginStep_cause (rest : List HostAction) (s : State) : (beginStep rest s).cause = s.cause := rfl
@[simp] theorem beginStep_inputs (rest : List HostAction) (s : State) : (beginStep rest s).inputs = rest := rfl
@[simp] theorem beginStep_rsp (rest : List HostAction) (s : State) : (beginStep rest s).rsp = none := rfl
@[simp] theorem beginStep_draws (rest : List HostAction) (s : State) : (beginStep rest s).draws = s.draws := rfl

/-! ### `absorbed` -/

@[simp] theorem absorbed_h (b : Byte) (s : State) : (absorbed b s).h = s.h := rfl
@[simp] theorem absorbed_work (b : Byte) (s : State) : (absorbed b s).work = s.work := rfl
@[simp] theorem absorbed_w (b : Byte) (s : State) : (absorbed b s).w = s.w := rfl
@[simp] theorem absorbed_buf (b : Byte) (s : State) : (absorbed b s).buf = s.buf.write s.bufLen.toNat b := rfl
@[simp] theorem absorbed_bufLen (b : Byte) (s : State) : (absorbed b s).bufLen = s.bufLen + 1 := rfl
@[simp] theorem absorbed_len (b : Byte) (s : State) : (absorbed b s).len = s.len + 8 := rfl
@[simp] theorem absorbed_t (b : Byte) (s : State) : (absorbed b s).t = s.t := rfl
@[simp] theorem absorbed_fsm (b : Byte) (s : State) : (absorbed b s).fsm = if s.bufLen.toNat + 1 = bufferBytes then .load else s.fsm := rfl
@[simp] theorem absorbed_fin (b : Byte) (s : State) : (absorbed b s).fin = s.fin := rfl
@[simp] theorem absorbed_cause (b : Byte) (s : State) : (absorbed b s).cause = s.cause := rfl
@[simp] theorem absorbed_inputs (b : Byte) (s : State) : (absorbed b s).inputs = s.inputs := rfl
@[simp] theorem absorbed_rsp (b : Byte) (s : State) : (absorbed b s).rsp = some ⟨false, 0⟩ := rfl
@[simp] theorem absorbed_draws (b : Byte) (s : State) : (absorbed b s).draws = s.draws := rfl

/-! ### `padded` -/

@[simp] theorem padded_h (s : State) : (padded s).h = s.h := rfl
@[simp] theorem padded_work (s : State) : (padded s).work = s.work := rfl
@[simp] theorem padded_w (s : State) : (padded s).w = s.w := rfl
@[simp] theorem padded_buf (s : State) : (padded s).buf = padBlock s.buf s.bufLen.toNat s.len := rfl
@[simp] theorem padded_bufLen (s : State) : (padded s).bufLen = 64 := rfl
@[simp] theorem padded_len (s : State) : (padded s).len = s.len := rfl
@[simp] theorem padded_t (s : State) : (padded s).t = s.t := rfl
@[simp] theorem padded_fsm (s : State) : (padded s).fsm = .load := rfl
@[simp] theorem padded_fin (s : State) : (padded s).fin = if s.bufLen.toNat ≤ 55 then .last else .extra := rfl
@[simp] theorem padded_cause (s : State) : (padded s).cause = s.cause := rfl
@[simp] theorem padded_inputs (s : State) : (padded s).inputs = s.inputs := rfl
@[simp] theorem padded_rsp (s : State) : (padded s).rsp = some ⟨false, 0⟩ := rfl
@[simp] theorem padded_draws (s : State) : (padded s).draws = s.draws := rfl

/-! ### `loaded` -/

@[simp] theorem loaded_h (s : State) : (loaded s).h = s.h := rfl
@[simp] theorem loaded_work (s : State) : (loaded s).work = workingOf s.h := rfl
@[simp] theorem loaded_w (s : State) : (loaded s).w = loadSchedule s.buf s.w := rfl
@[simp] theorem loaded_buf (s : State) : (loaded s).buf = s.buf := rfl
@[simp] theorem loaded_bufLen (s : State) : (loaded s).bufLen = s.bufLen := rfl
@[simp] theorem loaded_len (s : State) : (loaded s).len = s.len := rfl
@[simp] theorem loaded_t (s : State) : (loaded s).t = 16 := rfl
@[simp] theorem loaded_fsm (s : State) : (loaded s).fsm = .expand := rfl
@[simp] theorem loaded_fin (s : State) : (loaded s).fin = s.fin := rfl
@[simp] theorem loaded_cause (s : State) : (loaded s).cause = s.cause := rfl
@[simp] theorem loaded_inputs (s : State) : (loaded s).inputs = s.inputs := rfl
@[simp] theorem loaded_rsp (s : State) : (loaded s).rsp = s.rsp := rfl
@[simp] theorem loaded_draws (s : State) : (loaded s).draws = s.draws := rfl

/-! ### `expanded` -/

@[simp] theorem expanded_h (s : State) : (expanded s).h = s.h := rfl
@[simp] theorem expanded_work (s : State) : (expanded s).work = s.work := rfl
@[simp] theorem expanded_w (s : State) : (expanded s).w = s.w.setIfInBounds s.t.toNat (nextScheduleWord s.w s.t.toNat) := rfl
@[simp] theorem expanded_buf (s : State) : (expanded s).buf = s.buf := rfl
@[simp] theorem expanded_bufLen (s : State) : (expanded s).bufLen = s.bufLen := rfl
@[simp] theorem expanded_len (s : State) : (expanded s).len = s.len := rfl
@[simp] theorem expanded_t (s : State) : (expanded s).t = if s.t.toNat = 79 then 0 else s.t + 1 := rfl
@[simp] theorem expanded_fsm (s : State) : (expanded s).fsm = if s.t.toNat = 79 then .round else s.fsm := rfl
@[simp] theorem expanded_fin (s : State) : (expanded s).fin = s.fin := rfl
@[simp] theorem expanded_cause (s : State) : (expanded s).cause = s.cause := rfl
@[simp] theorem expanded_inputs (s : State) : (expanded s).inputs = s.inputs := rfl
@[simp] theorem expanded_rsp (s : State) : (expanded s).rsp = s.rsp := rfl
@[simp] theorem expanded_draws (s : State) : (expanded s).draws = s.draws := rfl

/-! ### `rounded` -/

@[simp] theorem rounded_h (s : State) : (rounded s).h = s.h := rfl
@[simp] theorem rounded_work (s : State) : (rounded s).work = compressRound s.t.toNat s.work (scheduleAt s.w s.t.toNat) := rfl
@[simp] theorem rounded_w (s : State) : (rounded s).w = s.w := rfl
@[simp] theorem rounded_buf (s : State) : (rounded s).buf = s.buf := rfl
@[simp] theorem rounded_bufLen (s : State) : (rounded s).bufLen = s.bufLen := rfl
@[simp] theorem rounded_len (s : State) : (rounded s).len = s.len := rfl
@[simp] theorem rounded_t (s : State) : (rounded s).t = if s.t.toNat = 79 then 0 else s.t + 1 := rfl
@[simp] theorem rounded_fsm (s : State) : (rounded s).fsm = if s.t.toNat = 79 then .fold else s.fsm := rfl
@[simp] theorem rounded_fin (s : State) : (rounded s).fin = s.fin := rfl
@[simp] theorem rounded_cause (s : State) : (rounded s).cause = s.cause := rfl
@[simp] theorem rounded_inputs (s : State) : (rounded s).inputs = s.inputs := rfl
@[simp] theorem rounded_rsp (s : State) : (rounded s).rsp = s.rsp := rfl
@[simp] theorem rounded_draws (s : State) : (rounded s).draws = s.draws := rfl

/-! ### `folded`, by the finalisation stage -/

@[simp] theorem folded_h (s : State) : (folded s).h = addWorking s.h s.work := by
  unfold folded foldContinue; split <;> rfl
@[simp] theorem folded_work (s : State) : (folded s).work = s.work := by
  unfold folded foldContinue; split <;> rfl
@[simp] theorem folded_w (s : State) : (folded s).w = s.w := by
  unfold folded foldContinue; split <;> rfl
@[simp] theorem folded_len (s : State) : (folded s).len = s.len := by
  unfold folded foldContinue; split <;> rfl
@[simp] theorem folded_t (s : State) : (folded s).t = s.t := by
  unfold folded foldContinue; split <;> rfl
@[simp] theorem folded_cause (s : State) : (folded s).cause = s.cause := by
  unfold folded foldContinue; split <;> rfl
@[simp] theorem folded_inputs (s : State) : (folded s).inputs = s.inputs := by
  unfold folded foldContinue; split <;> rfl
@[simp] theorem folded_rsp (s : State) : (folded s).rsp = s.rsp := by
  unfold folded foldContinue; split <;> rfl
@[simp] theorem folded_draws (s : State) : (folded s).draws = s.draws := by
  unfold folded foldContinue; split <;> rfl

theorem folded_none_buf {s : State} (h : s.fin = .none) : (folded s).buf = s.buf := by
  simp [folded, foldContinue, h]
theorem folded_none_bufLen {s : State} (h : s.fin = .none) : (folded s).bufLen = 0 := by
  simp [folded, foldContinue, h]
theorem folded_none_fin {s : State} (h : s.fin = .none) : (folded s).fin = .none := by
  simp [folded, foldContinue, h]
theorem folded_none_fsm {s : State} (h : s.fin = .none) : (folded s).fsm = .absorb := by
  simp [folded, foldContinue, h]

theorem folded_extra_buf {s : State} (h : s.fin = .extra) : (folded s).buf = extraBlock s.buf s.len := by
  simp [folded, foldContinue, h]
theorem folded_extra_bufLen {s : State} (h : s.fin = .extra) : (folded s).bufLen = 64 := by
  simp [folded, foldContinue, h]
theorem folded_extra_fin {s : State} (h : s.fin = .extra) : (folded s).fin = .last := by
  simp [folded, foldContinue, h]
theorem folded_extra_fsm {s : State} (h : s.fin = .extra) : (folded s).fsm = .load := by
  simp [folded, foldContinue, h]

theorem folded_last_buf {s : State} (h : s.fin = .last) : (folded s).buf = s.buf := by
  simp [folded, foldContinue, h]
theorem folded_last_bufLen {s : State} (h : s.fin = .last) : (folded s).bufLen = 0 := by
  simp [folded, foldContinue, h]
theorem folded_last_fin {s : State} (h : s.fin = .last) : (folded s).fin = .none := by
  simp [folded, foldContinue, h]
theorem folded_last_fsm {s : State} (h : s.fin = .last) : (folded s).fsm = .done := by
  simp [folded, foldContinue, h]

/-! ### `resetStep` -/

@[simp] theorem resetStep_h (s : State) : (resetStep s).h = drawnState s.draws := rfl
@[simp] theorem resetStep_work (s : State) : (resetStep s).work = drawnWorking s.draws := rfl
@[simp] theorem resetStep_w (s : State) : (resetStep s).w = drawnSchedule s.draws := rfl
@[simp] theorem resetStep_buf (s : State) : (resetStep s).buf = drawnBuffer s.draws := rfl
@[simp] theorem resetStep_bufLen (s : State) : (resetStep s).bufLen = 0 := rfl
@[simp] theorem resetStep_len (s : State) : (resetStep s).len = 0 := rfl
@[simp] theorem resetStep_t (s : State) : (resetStep s).t = 0 := rfl
@[simp] theorem resetStep_fsm (s : State) : (resetStep s).fsm = .idle := rfl
@[simp] theorem resetStep_fin (s : State) : (resetStep s).fin = .none := rfl
@[simp] theorem resetStep_cause (s : State) : (resetStep s).cause = .none := rfl
@[simp] theorem resetStep_inputs (s : State) : (resetStep s).inputs = s.inputs := rfl
@[simp] theorem resetStep_rsp (s : State) : (resetStep s).rsp = s.rsp := rfl
@[simp] theorem resetStep_draws (s : State) : (resetStep s).draws = s.draws + 1 := rfl

/-! ### `offerWord` -/

@[simp] theorem offerWord_h (s : State) (cw : CommandWord) : (offerWord s cw).h = s.h := rfl
@[simp] theorem offerWord_work (s : State) (cw : CommandWord) : (offerWord s cw).work = s.work := rfl
@[simp] theorem offerWord_w (s : State) (cw : CommandWord) : (offerWord s cw).w = s.w := rfl
@[simp] theorem offerWord_buf (s : State) (cw : CommandWord) : (offerWord s cw).buf = s.buf := rfl
@[simp] theorem offerWord_bufLen (s : State) (cw : CommandWord) : (offerWord s cw).bufLen = s.bufLen := rfl
@[simp] theorem offerWord_len (s : State) (cw : CommandWord) : (offerWord s cw).len = s.len := rfl
@[simp] theorem offerWord_t (s : State) (cw : CommandWord) : (offerWord s cw).t = s.t := rfl
@[simp] theorem offerWord_fsm (s : State) (cw : CommandWord) : (offerWord s cw).fsm = s.fsm := rfl
@[simp] theorem offerWord_fin (s : State) (cw : CommandWord) : (offerWord s cw).fin = s.fin := rfl
@[simp] theorem offerWord_cause (s : State) (cw : CommandWord) : (offerWord s cw).cause = s.cause := rfl
@[simp] theorem offerWord_inputs (s : State) (cw : CommandWord) : (offerWord s cw).inputs = .command cw :: s.inputs := rfl
@[simp] theorem offerWord_rsp (s : State) (cw : CommandWord) : (offerWord s cw).rsp = s.rsp := rfl
@[simp] theorem offerWord_draws (s : State) (cw : CommandWord) : (offerWord s cw).draws = s.draws := rfl

end Sys2Proof.Machine
end

