-- ==== Sys2Proof/Laws/Exec.lean ====
section
/-! SUPPORT. What the shared check of an accepted command answers in each phase, and everything a command can do: if `exec`
answers a next state, it is one of the five effects of `CommandEffect`. -/

namespace Sys2Proof.Machine

/-! ### The phase check -/

variable {phase : Fsm} {l : Bool} {s : State} {body : Host.Outcome State Fault Refusal}

theorem serveInPhase_fault (h : s.fsm = .fault) : serveInPhase phase l s body = .next (answerRetained s) := by
  simp [serveInPhase, h]

theorem serveInPhase_illegal (h : s.fsm ≠ .fault) :
    serveInPhase phase false s body = .next (raiseFault true .illegalCommand s) := by
  simp [serveInPhase, h]

theorem serveInPhase_served (hp : s.fsm = phase) (h : phase ≠ .fault) : serveInPhase phase true s body = body := by
  simp [serveInPhase, hp, h]

theorem serveInPhase_outOfPhase (h : s.fsm ≠ .fault) (hp : s.fsm ≠ phase) :
    serveInPhase phase true s body = .next (raiseFault true .sequenceError s) := by
  simp [serveInPhase, h, hp]

/-! ### What a command can do -/

/-- Everything a command can do when it answers a next state. -/
inductive CommandEffect (i : Instr) (s : State) : State → Prop
  /-- A response and no change of state. -/
  | answered (err : Bool) (data : Word) : CommandEffect i s (respond err data s)
  /-- INIT (46_control_and_pipeline.md R130). -/
  | begun : i = .init → CommandEffect i s (respond false 0 (beginComputation s))
  /-- A fault taken outside FAULT by a command (60_exceptions.md R140, R148). -/
  | raised (x : Cause) : s.fsm ≠ .fault → x ≠ .none → x ≠ .internalInvariantViolation →
      CommandEffect i s (raiseFault true x s)
  /-- A message byte accepted (40_bit_encoder.md R80). -/
  | absorbed (b : Byte) : i = .absorb b → s.fsm = .absorb → s.len.toNat + 8 ≤ 2 ^ 64 - 1 → s.bufLen.toNat < 64 →
      CommandEffect i s (absorbed b s)
  /-- The message closed and padded (41_padder.md R91). -/
  | padded : i = .final → s.fsm = .absorb → s.bufLen.toNat < 64 → CommandEffect i s (padded s)

/-- The phase check passes on the effect of the command's own rule, or answers or raises. -/
theorem serveInPhase_effect {i : Instr} {u : State} (hp : phase ≠ .fault)
    (h : serveInPhase phase l s body = .next u)
    (hb : s.fsm = phase → l = true → body = .next u → CommandEffect i s u) : CommandEffect i s u := by
  by_cases hf : s.fsm = .fault
  · rw [serveInPhase_fault hf] at h
    cases h
    exact .answered true s.cause.data
  · cases l with
    | false =>
      rw [serveInPhase_illegal hf] at h
      cases h
      exact .raised _ hf (by decide) (by decide)
    | true =>
      by_cases hq : s.fsm = phase
      · rw [serveInPhase_served hq hp] at h
        exact hb hq rfl h
      · rw [serveInPhase_outOfPhase hf hq] at h
        cases h
        exact .raised _ hf (by decide) (by decide)

/-- If `exec` answers a next state, it is one of the five effects. -/
theorem exec_effect {i : Instr} {s u : State} (h : exec i s = .next u) : CommandEffect i s u := by
  cases i with
  | nop => cases h; exact .answered _ _
  | init => cases h; exact .begun rfl
  | rdstat => cases h; exact .answered _ _
  | absorb b =>
    refine serveInPhase_effect (by decide) h fun hs _ hb => ?_
    by_cases hl : 2 ^ 64 - 1 < s.len.toNat + 8
    · rw [if_pos hl] at hb
      cases hb
      exact .raised _ (by simp [hs]) (by decide) (by decide)
    · rw [if_neg hl, absorbByte] at hb
      split at hb
      · rename_i hn
        cases hb
        exact .absorbed b rfl hs (by omega) hn
      · cases hb
  | final =>
    refine serveInPhase_effect (by decide) h fun hs _ hb => ?_
    rw [finishMessage] at hb
    split at hb
    · rename_i hn
      cases hb
      exact .padded rfl hs hn
    · cases hb
  | rdword n => exact serveInPhase_effect (by decide) h fun _ _ hb => by cases hb; exact .answered _ _
  | rdbyte k => exact serveInPhase_effect (by decide) h fun _ _ hb => by cases hb; exact .answered _ _
  | rdhex j => exact serveInPhase_effect (by decide) h fun _ _ hb => by cases hb; exact .answered _ _

/-! ### When a command answers a next state -/

/-- ABSORB served: the byte is accepted. -/
theorem execAbsorb_served {b : Byte} {s : State} (hs : s.fsm = .absorb) (hl : s.len.toNat + 8 ≤ 2 ^ 64 - 1)
    (hn : s.bufLen.toNat < 64) : exec (.absorb b) s = .next (absorbed b s) := by
  show serveInPhase .absorb true s _ = _
  rw [serveInPhase_served hs (by decide), if_neg (by omega), absorbByte, if_pos (by simpa [bufferBytes] using hn)]

/-- FINAL served: the message is padded. -/
theorem execFinal_served {s : State} (hs : s.fsm = .absorb) (hn : s.bufLen.toNat < 64) :
    exec .final s = .next (padded s) := by
  show serveInPhase .absorb true s _ = _
  rw [serveInPhase_served hs (by decide), finishMessage, if_pos (by simpa [bufferBytes] using hn)]

/-- A command stops the model only in phase ABSORB with `BUFLEN` 64 or more (log entry 8). -/
theorem exec_answers {i : Instr} {s : State} (h : s.fsm = .absorb → s.bufLen.toNat < 64) : ∃ u, exec i s = .next u := by
  have gate : ∀ {phase : Fsm} {l : Bool} {body}, (s.fsm = phase → ∃ u, body = .next u) →
      ∃ u, serveInPhase phase l s body = .next u := by
    intro phase l body hb
    unfold serveInPhase
    split_ifs with h1 h2 h3
    · exact ⟨_, rfl⟩
    · exact ⟨_, rfl⟩
    · exact hb h3
    · exact ⟨_, rfl⟩
  cases i with
  | nop => exact ⟨_, rfl⟩
  | init => exact ⟨_, rfl⟩
  | rdstat => exact ⟨_, rfl⟩
  | absorb b =>
    refine gate fun hs => ?_
    by_cases hl : 2 ^ 64 - 1 < s.len.toNat + 8
    · exact ⟨_, if_pos hl⟩
    · exact ⟨absorbed b s, by rw [if_neg hl, absorbByte, if_pos (by simpa [bufferBytes] using h hs)]⟩
  | final => exact gate fun hs => ⟨padded s, by rw [finishMessage, if_pos (by simpa [bufferBytes] using h hs)]⟩
  | rdword n => exact gate fun _ => ⟨_, rfl⟩
  | rdbyte k => exact gate fun _ => ⟨_, rfl⟩
  | rdhex j => exact gate fun _ => ⟨_, rfl⟩

end Sys2Proof.Machine
end

