-- ==== Sys2Proof/Laws/Memory.lean ====
section
/-! SUPPORT. The laws of the block buffer: a read after a write, the canonical form every operation keeps, equal buffers are
equal data, and what each of the padding operations leaves at every address. -/

namespace Sys2Proof.Machine

/-! ### Read after write -/

@[simp] theorem Memory.read_nil (a : Nat) : Memory.read [] a = Config.unlistedByte := rfl

theorem Memory.read_cons (k : Nat) (u : Byte) (rest : Memory) (a : Nat) :
    Memory.read ((k, u) :: rest) a = if k = a then u else Memory.read rest a := rfl

theorem Memory.read_insert (a b : Nat) (v : Byte) :
    ∀ m : Memory, (m.insert a v).read b = if b = a then v else m.read b
  | [] => by simp [Memory.insert, Memory.read_cons, eq_comm]
  | (k, u) :: rest => by
    simp only [Memory.insert]
    split
    · by_cases hb : b = a
      · simp [Memory.read_cons, hb]
      · simp [Memory.read_cons, hb, Ne.symm hb]
    · split
      · rename_i hak
        by_cases hb : b = a
        · simp [Memory.read_cons, hb]
        · simp [Memory.read_cons, hb, Ne.symm hb, ← hak]
      · rename_i hak
        have ih := Memory.read_insert a b v rest
        by_cases hkb : k = b
        · subst hkb
          simp [Memory.read_cons, Ne.symm hak]
        · simp [Memory.read_cons, hkb, ih]

theorem Memory.read_filter (a b : Nat) :
    ∀ m : Memory, Memory.read (m.filter (·.1 ≠ a)) b = if b = a then Config.unlistedByte else m.read b
  | [] => by simp
  | (k, u) :: rest => by
    have ih := Memory.read_filter a b rest
    by_cases hka : k = a
    · by_cases hb : b = a
      · simp_all
      · simp_all [Memory.read_cons, Ne.symm hb]
    · by_cases hkb : k = b
      · subst hkb
        simp [hka, Memory.read_cons]
      · simp_all [Memory.read_cons]

/-- A read after a write: the byte written there, every other byte as before. -/
theorem Memory.read_write (m : Memory) (a b : Nat) (v : Byte) :
    (m.write a v).read b = if b = a then v else m.read b := by
  unfold Memory.write
  split
  · rename_i hv
    rw [Memory.read_filter, hv]
  · exact Memory.read_insert a b v m

/-- A read after `fill`: the byte filled in inside the range, every other byte as before. -/
theorem Memory.read_fill (v : Byte) (b : Nat) : ∀ (n : Nat) (m : Memory) (a : Nat),
    (m.fill a v n).read b = if a ≤ b ∧ b < a + n then v else m.read b
  | 0, m, a => by rw [Memory.fill, if_neg (by omega)]
  | n + 1, m, a => by
    rw [Memory.fill, Memory.read_fill v b n, Memory.read_write]
    split_ifs <;> first | rfl | omega

/-- A read after `writeBytes`: byte `b - a` of the list inside the range, every other byte as before. -/
theorem Memory.read_writeBytes (b : Nat) : ∀ (l : List Byte) (m : Memory) (a : Nat),
    (m.writeBytes a l).read b = if a ≤ b ∧ b < a + l.length then l.getD (b - a) 0 else m.read b
  | [], m, a => by rw [Memory.writeBytes, if_neg (by simp)]
  | v :: rest, m, a => by
    rw [Memory.writeBytes, Memory.read_writeBytes b rest, Memory.read_write]
    by_cases hb : b = a
    · subst hb; simp
    · by_cases h : a + 1 ≤ b ∧ b < a + 1 + rest.length
      · have : b - a = (b - (a + 1)) + 1 := by omega
        rw [if_pos h, if_pos (by simp; omega), this, List.getD_cons_succ]
      · rw [if_neg h, if_neg hb, if_neg (by simp; omega)]

/-- A read after the length suffix is written: byte `b - 56` of its big-endian image in `BUF[56..63]`. -/
theorem Memory.read_writeLength (m : Memory) (len : BitVec 64) (b : Nat) :
    (m.writeLength len).read b = if 56 ≤ b ∧ b < 64 then be64byte len (b - 56) else m.read b := by
  rw [Memory.writeLength, Memory.read_writeBytes]
  by_cases h : 56 ≤ b ∧ b < 64
  · have h8 : b - 56 < 8 := by omega
    rw [if_pos h, if_pos (by simp [be64bytes]; omega)]
    simp [be64bytes, List.getD_eq_getElem?_getD, List.getElem?_map, List.getElem?_range h8]
  · rw [if_neg h, if_neg (by simp [be64bytes]; omega)]

/-- The Block FINAL builds, at every address (41_padder.md R91). -/
theorem padBlock_read (m : Memory) (n : Nat) (hn : n < 64) (len : BitVec 64) (b : Nat) :
    (padBlock m n len).read b =
      if n ≤ 55 ∧ 56 ≤ b ∧ b < 64 then be64byte len (b - 56)
      else if b = n then 0x80
      else if n < b ∧ b < 64 then 0x00
      else m.read b := by
  simp only [padBlock, bufferBytes]
  split
  · rw [Memory.read_writeLength, Memory.read_fill, Memory.read_write]
    split_ifs <;> first | rfl | omega
  · rw [Memory.read_fill, Memory.read_write]
    split_ifs <;> first | rfl | omega

/-- The extra Block, at every address (44_compressor.md R120). -/
theorem extraBlock_read (m : Memory) (len : BitVec 64) (b : Nat) :
    (extraBlock m len).read b =
      if 56 ≤ b ∧ b < 64 then be64byte len (b - 56) else if b < 56 then 0x00 else m.read b := by
  rw [extraBlock, Memory.read_writeLength, Memory.read_fill]
  split_ifs <;> first | rfl | omega

/-! ### The canonical form -/

theorem Memory.wfFrom_cons {lo k : Nat} {u : Byte} {rest : Memory} :
    Memory.wfFrom lo ((k, u) :: rest) = true ↔
      lo ≤ k ∧ k < bufferBytes ∧ u ≠ Config.unlistedByte ∧ Memory.wfFrom (k + 1) rest = true := by
  simp [Memory.wfFrom, and_assoc]

/-- A buffer canonical from an address on is canonical from any lower one on. -/
theorem Memory.wfFrom_mono : ∀ {m : Memory} {lo lo' : Nat}, lo' ≤ lo → Memory.wfFrom lo m = true → Memory.wfFrom lo' m = true
  | [], _, _, _, _ => rfl
  | (k, u) :: rest, lo, lo', h, hm => by
    rw [Memory.wfFrom_cons] at hm ⊢
    exact ⟨by omega, hm.2⟩

theorem Memory.wfFrom_insert {a : Nat} {v : Byte} (ha : a < bufferBytes) (hv : v ≠ Config.unlistedByte) :
    ∀ {m : Memory} {lo : Nat}, lo ≤ a → Memory.wfFrom lo m = true → Memory.wfFrom lo (m.insert a v) = true
  | [], lo, hlo, _ => by simp [Memory.insert, Memory.wfFrom, hlo, ha, hv]
  | (k, u) :: rest, lo, hlo, h => by
    rw [Memory.wfFrom_cons] at h
    obtain ⟨h1, h2, h3, h4⟩ := h
    simp only [Memory.insert]
    split
    · rw [Memory.wfFrom_cons, Memory.wfFrom_cons]
      exact ⟨hlo, ha, hv, by omega, h2, h3, h4⟩
    · split
      · rename_i hak
        rw [Memory.wfFrom_cons]
        exact ⟨hlo, ha, hv, hak ▸ h4⟩
      · rw [Memory.wfFrom_cons]
        exact ⟨h1, h2, h3, Memory.wfFrom_insert ha hv (by omega) h4⟩

theorem Memory.wfFrom_filter (a : Nat) :
    ∀ {m : Memory} {lo : Nat}, Memory.wfFrom lo m = true → Memory.wfFrom lo (m.filter (·.1 ≠ a)) = true
  | [], _, _ => rfl
  | (k, u) :: rest, lo, h => by
    rw [Memory.wfFrom_cons] at h
    obtain ⟨h1, h2, h3, h4⟩ := h
    have ih := Memory.wfFrom_filter a h4
    by_cases hka : k = a
    · rw [List.filter_cons_of_neg (by simp [hka])]
      exact Memory.wfFrom_mono (by omega) ih
    · rw [List.filter_cons_of_pos (by simp [hka]), Memory.wfFrom_cons]
      exact ⟨h1, h2, h3, ih⟩

/-- A write inside `BUF[0..63]` keeps the canonical form. -/
theorem Memory.wf_write {m : Memory} {a : Nat} {v : Byte} (hm : m.wf = true) (ha : a < bufferBytes) :
    (m.write a v).wf = true := by
  unfold Memory.write Memory.wf
  split
  · exact Memory.wfFrom_filter a hm
  · rename_i hv
    exact Memory.wfFrom_insert ha hv (Nat.zero_le a) hm

theorem Memory.wf_fill {v : Byte} : ∀ {n a : Nat} {m : Memory}, m.wf = true → a + n ≤ bufferBytes → (m.fill a v n).wf = true
  | 0, _, _, hm, _ => hm
  | n + 1, a, m, hm, h => Memory.wf_fill (n := n) (Memory.wf_write hm (by omega)) (by omega)

theorem Memory.wf_writeBytes : ∀ {l : List Byte} {a : Nat} {m : Memory}, m.wf = true → a + l.length ≤ bufferBytes →
    (m.writeBytes a l).wf = true
  | [], _, _, hm, _ => hm
  | v :: rest, a, m, hm, h => by
    simp only [List.length_cons] at h
    exact Memory.wf_writeBytes (l := rest) (Memory.wf_write hm (by omega)) (by omega)

theorem Memory.wf_writeLength {m : Memory} (hm : m.wf = true) (len : BitVec 64) : (m.writeLength len).wf = true :=
  Memory.wf_writeBytes hm (by simp [be64bytes, bufferBytes])

theorem padBlock_wf {m : Memory} {n : Nat} (hm : m.wf = true) (hn : n < 64) (len : BitVec 64) :
    (padBlock m n len).wf = true := by
  have hz : ((m.write n 0x80).fill (n + 1) 0x00 (bufferBytes - (n + 1))).wf = true :=
    Memory.wf_fill (Memory.wf_write hm (by simpa [bufferBytes] using hn)) (by simp only [bufferBytes]; omega)
  simp only [padBlock]
  split
  · exact Memory.wf_writeLength hz len
  · exact hz

theorem extraBlock_wf {m : Memory} (hm : m.wf = true) (len : BitVec 64) : (extraBlock m len).wf = true :=
  Memory.wf_writeLength (Memory.wf_fill hm (by simp [bufferBytes])) len

theorem drawnBuffer_wf (n : Nat) : (drawnBuffer n).wf = true :=
  Memory.wf_writeBytes rfl (by simp [bufferBytes])

theorem reset_buf_wf : State.reset.buf.wf = true := rfl

/-! ### Equal buffers are equal data -/

/-- Below the first listed address nothing is listed. -/
theorem Memory.read_below : ∀ {m : Memory} {lo a : Nat}, Memory.wfFrom lo m = true → a < lo → m.read a = Config.unlistedByte
  | [], _, _, _, _ => rfl
  | (k, u) :: rest, lo, a, h, ha => by
    rw [Memory.wfFrom_cons] at h
    rw [Memory.read_cons, if_neg (by omega)]
    exact Memory.read_below h.2.2.2 (by omega)

theorem Memory.ext_from : ∀ {m m' : Memory} {lo : Nat}, Memory.wfFrom lo m = true → Memory.wfFrom lo m' = true →
    (∀ a, m.read a = m'.read a) → m = m'
  | [], [], _, _, _, _ => rfl
  | [], (k, u) :: rest, lo, _, h', he => by
    rw [Memory.wfFrom_cons] at h'
    exact absurd (by simpa [Memory.read_cons] using (he k).symm) h'.2.2.1
  | (k, u) :: rest, [], lo, h, _, he => by
    rw [Memory.wfFrom_cons] at h
    exact absurd (by simpa [Memory.read_cons] using he k) h.2.2.1
  | (k, u) :: rest, (k', u') :: rest', lo, h, h', he => by
    rw [Memory.wfFrom_cons] at h h'
    obtain ⟨-, -, hu, ht⟩ := h
    obtain ⟨-, -, hu', ht'⟩ := h'
    have hk : k = k' := by
      rcases Nat.lt_trichotomy k k' with hlt | heq | hgt
      · have := he k
        rw [Memory.read_cons, if_pos rfl, Memory.read_cons, if_neg (by omega), Memory.read_below ht' (by omega)] at this
        exact absurd this hu
      · exact heq
      · have := he k'
        rw [Memory.read_cons, if_neg (by omega), Memory.read_cons, if_pos rfl, Memory.read_below ht (by omega)] at this
        exact absurd this.symm hu'
    subst hk
    have hv : u = u' := by simpa [Memory.read_cons] using he k
    have hr : rest = rest' := Memory.ext_from ht ht' fun a => by
      by_cases hka : k = a
      · rw [Memory.read_below ht (by omega), Memory.read_below ht' (by omega)]
      · simpa [Memory.read_cons, hka] using he a
    rw [hv, hr]

/-- Two canonical buffers that read alike at every address are the same list. -/
theorem Memory.ext_of_wf {m m' : Memory} (h : m.wf = true) (h' : m'.wf = true) (he : ∀ a, m.read a = m'.read a) : m = m' :=
  Memory.ext_from h h' he

end Sys2Proof.Machine
end

