-- ==== Sys2Proof/Laws/PerInstr.lean ====
section
/-! SUPPORT. Facts about every command as syntax, one lemma per constructor: the three fields of its word
(30_encoding.md R64, R66). -/

/-- The fields of the word of `i`: its opcode, no reserved bit, its operand. -/
def Sys2Proof.Laws.EncodeFields.Statement (i : Sys2Proof.Instr) : Prop :=
  Sys2Proof.opField (Sys2Proof.encode i) = i.opcode ∧ Sys2Proof.rsvField (Sys2Proof.encode i) = 0 ∧
    Sys2Proof.argField (Sys2Proof.encode i) = i.operand

namespace Sys2Proof.Laws.EncodeFields

theorem fields_of_append (op : BitVec 4) (arg : Byte) :
    opField (op ++ (0 : BitVec 4) ++ arg) = op ∧ rsvField (op ++ (0 : BitVec 4) ++ arg) = 0 ∧
      argField (op ++ (0 : BitVec 4) ++ arg) = arg := by
  refine ⟨?_, ?_, ?_⟩ <;> apply BitVec.eq_of_getLsbD_eq <;> intro i hi <;>
    simp only [opField, rsvField, argField, BitVec.getLsbD_extractLsb', BitVec.getLsbD_append]
  · simp [show ¬12 + i < 8 by omega, show ¬12 + i - 8 < 4 by omega, show 12 + i - 8 - 4 = i by omega, hi]
  · simp [show ¬8 + i < 8 by omega, hi]
  · simp [hi]

theorem nop : Statement .nop := fields_of_append _ _
theorem init : Statement .init := fields_of_append _ _
theorem absorb (b : Byte) : Statement (.absorb b) := fields_of_append _ b
theorem final : Statement .final := fields_of_append _ _
theorem rdstat : Statement .rdstat := fields_of_append _ _
theorem rdword (i : Byte) : Statement (.rdword i) := fields_of_append _ i
theorem rdbyte (k : Byte) : Statement (.rdbyte k) := fields_of_append _ k
theorem rdhex (j : Byte) : Statement (.rdhex j) := fields_of_append _ j

end Sys2Proof.Laws.EncodeFields
end

