-- ==== Sys2Proof/Laws/Schedule.lean ====
section
/-! SUPPORT. The Schedule and the working registers: what LOAD, EXPAND and ROUND leave in them, and the pure Schedule of
43_message_scheduler.md R104 word by word. -/

namespace Sys2Proof.Machine

/-! ### Reading `W` -/

theorem scheduleAt_eq {w : Vector Word 80} {i : Nat} (hi : i < 80) : scheduleAt w i = w[i] := by
  simp [scheduleAt, hi]

theorem scheduleAt_set (w : Vector Word 80) (j i : Nat) (v : Word) (hi : i < 80) :
    scheduleAt (w.setIfInBounds j v) i = if j = i then v else scheduleAt w i := by
  rw [scheduleAt_eq hi, scheduleAt_eq hi, Vector.getElem_setIfInBounds hi]

/-- Two Schedules that read alike are the same. -/
theorem schedule_ext {w w' : Vector Word 80} (h : ∀ i < 80, scheduleAt w i = scheduleAt w' i) : w = w' := by
  ext i hi
  have := h i hi
  rw [scheduleAt_eq hi, scheduleAt_eq hi] at this
  rw [this]

/-- `W` after LOAD (42_block_splitter.md R100). -/
theorem scheduleAt_load (m : Memory) (w : Vector Word 80) (i : Nat) (hi : i < 80) :
    scheduleAt (loadSchedule m w) i = if i < 16 then m.readWord (4 * i) else scheduleAt w i := by
  rw [scheduleAt_eq hi, scheduleAt_eq hi]
  simp [loadSchedule]

/-! ### The pure Schedule -/

theorem extendSchedule_length : ∀ (n : Nat) (s : List Word), (extendSchedule n s).length = s.length + n
  | 0, _ => rfl
  | n + 1, s => by
    rw [extendSchedule, extendSchedule_length]
    simp
    omega

theorem expandBlock_length {m : List Word} (h : m.length = 16) : (expandBlock m).length = 80 := by
  rw [expandBlock, extendSchedule_length, h]

/-- Extending a Schedule keeps its words. -/
theorem extendSchedule_getD_old : ∀ (n : Nat) (s : List Word) (i : Nat), i < s.length →
    (extendSchedule n s).getD i 0 = s.getD i 0
  | 0, _, _, _ => rfl
  | n + 1, s, i, hi => by
    rw [extendSchedule, extendSchedule_getD_old n _ i (by simp; omega), List.getD_append _ _ _ _ hi]

/-- A Schedule extended step by step. -/
theorem extendSchedule_add : ∀ (a b : Nat) (s : List Word), extendSchedule (a + b) s = extendSchedule b (extendSchedule a s)
  | 0, b, s => by simp [extendSchedule]
  | a + 1, b, s => by
    rw [Nat.succ_add]
    exact extendSchedule_add a b _

/-- The recurrence, for a Schedule long enough to have the words 16 back. -/
theorem extendSchedule_getD_new (n : Nat) (s : List Word) (i : Nat) (hs : s.length ≤ i) (h16 : 16 ≤ s.length)
    (hi : i < s.length + n) :
    (extendSchedule n s).getD i 0 =
      rotl ((extendSchedule n s).getD (i - 3) 0 ^^^ (extendSchedule n s).getD (i - 8) 0 ^^^
        (extendSchedule n s).getD (i - 14) 0 ^^^ (extendSchedule n s).getD (i - 16) 0) 1 := by
  obtain ⟨k, rfl⟩ : ∃ k, i = s.length + k := ⟨i - s.length, by omega⟩
  obtain ⟨r, rfl⟩ : ∃ r, n = k + (r + 1) := ⟨n - k - 1, by omega⟩
  rw [extendSchedule_add]
  have hl := extendSchedule_length k s
  generalize extendSchedule k s = p at hl
  have old : ∀ j, j < p.length → (extendSchedule (r + 1) p).getD j 0 = p.getD j 0 :=
    fun j hj => extendSchedule_getD_old (r + 1) p j hj
  rw [← hl, old (p.length - 3) (by omega), old (p.length - 8) (by omega), old (p.length - 14) (by omega),
    old (p.length - 16) (by omega), extendSchedule, extendSchedule_getD_old r _ _ (by simp)]
  rw [List.getD_append_right _ _ _ _ (Nat.le_refl _), Nat.sub_self, List.getD_cons_zero]

/-! ### `W` against the pure Schedule -/

/-- `W[0..n-1]` holds the first `n` words of the Schedule of the Block `m`. -/
def HoldsSchedule (w : Vector Word 80) (m : List Word) (n : Nat) : Prop :=
  ∀ i < n, i < 80 → scheduleAt w i = (expandBlock m).getD i 0

/-- After LOAD the first sixteen words are the Block's (42_block_splitter.md R101). -/
theorem holdsSchedule_load (m : Memory) (w : Vector Word 80) : HoldsSchedule (loadSchedule m w) m.blockWords 16 := by
  intro i hi _
  have hl : m.blockWords.length = 16 := by simp [Memory.blockWords]
  rw [scheduleAt_load m w i (by omega), if_pos hi, expandBlock, extendSchedule_getD_old _ _ _ (by omega)]
  simp [Memory.blockWords, List.getD_eq_getElem?_getD, List.getElem?_map, List.getElem?_range hi]

/-- An EXPAND step at index `n` adds one word (43_message_scheduler.md R106, R107). -/
theorem holdsSchedule_expand {w : Vector Word 80} {m : List Word} {n : Nat} (hm : m.length = 16) (h16 : 16 ≤ n) (hn : n ≤ 79)
    (h : HoldsSchedule w m n) : HoldsSchedule (w.setIfInBounds n (nextScheduleWord w n)) m (n + 1) := by
  intro i hi hi80
  rw [scheduleAt_set _ _ _ _ hi80]
  split
  · rename_i hni
    subst hni
    rw [nextScheduleWord, h _ (by omega) (by omega), h _ (by omega) (by omega), h _ (by omega) (by omega),
      h _ (by omega) (by omega)]
    exact (extendSchedule_getD_new 64 m n (by omega) (by omega) (by omega)).symm
  · exact h i (by omega) hi80

/-- One more round (44_compressor.md R115). -/
theorem runRounds_succ (r : Working) (s : List Word) (n : Nat) :
    runRounds r s (n + 1) = compressRound n (runRounds r s n) (s.getD n 0) := by
  simp [runRounds, List.range_succ, List.foldl_append]

end Sys2Proof.Machine
end

