-- ==== Sys2Proof/Laws/Step.lean ====
section
/-! SUPPORT. Everything an internal step and a step can do: the inversion lemmas from which every invariant follows. -/

namespace Sys2Proof.Machine

/-! ### Ready and busy -/

@[simp] theorem ready_idle : Fsm.ready .idle = true := rfl
@[simp] theorem ready_absorb : Fsm.ready .absorb = true := rfl
@[simp] theorem ready_done : Fsm.ready .done = true := rfl
@[simp] theorem ready_fault : Fsm.ready .fault = true := rfl
@[simp] theorem ready_load : Fsm.ready .load = false := rfl
@[simp] theorem ready_expand : Fsm.ready .expand = false := rfl
@[simp] theorem ready_round : Fsm.ready .round = false := rfl
@[simp] theorem ready_fold : Fsm.ready .fold = false := rfl

/-- The four ready states (10_state.md R30). -/
theorem ready_iff {f : Fsm} : f.ready = true ↔ f = .idle ∨ f = .absorb ∨ f = .done ∨ f = .fault := by
  cases f <;> decide

/-- The four busy states (10_state.md R30). -/
theorem busy_iff {f : Fsm} : f.ready = false ↔ f = .load ∨ f = .expand ∨ f = .round ∨ f = .fold := by
  cases f <;> decide

/-! ### The internal steps -/

/-- Everything an internal step can do when it answers a next state. -/
inductive InternalEffect (s : State) : State → Prop
  | nothing : s.fsm.ready = true → InternalEffect s s
  | loaded : s.fsm = .load → s.bufLen = 64 → InternalEffect s (loaded s)
  | loadFault : s.fsm = .load → s.bufLen ≠ 64 → InternalEffect s (raiseFault false .internalInvariantViolation s)
  | expanded : s.fsm = .expand → 16 ≤ s.t.toNat → s.t.toNat ≤ 79 → InternalEffect s (expanded s)
  | rounded : s.fsm = .round → s.t.toNat ≤ 79 → InternalEffect s (rounded s)
  | folded : s.fsm = .fold → InternalEffect s (folded s)

theorem internalStep_ready {s : State} (h : s.fsm.ready = true) : internalStep s = .next s := by
  rcases ready_iff.1 h with h | h | h | h <;> simp [internalStep, h]

theorem internalStep_load {s : State} (h : s.fsm = .load) (hb : s.bufLen = 64) : internalStep s = .next (loaded s) := by
  simp [internalStep, h, loadStep, hb]

theorem internalStep_loadFault {s : State} (h : s.fsm = .load) (hb : s.bufLen ≠ 64) :
    internalStep s = .next (raiseFault false .internalInvariantViolation s) := by
  simp only [internalStep, h]
  exact if_pos hb

theorem internalStep_expand {s : State} (h : s.fsm = .expand) (h1 : 16 ≤ s.t.toNat) (h2 : s.t.toNat ≤ 79) :
    internalStep s = .next (expanded s) := by
  simp [internalStep, h, expandStep, h1, h2]

theorem internalStep_round {s : State} (h : s.fsm = .round) (h2 : s.t.toNat ≤ 79) :
    internalStep s = .next (rounded s) := by
  simp [internalStep, h, roundStep, h2]

theorem internalStep_fold {s : State} (h : s.fsm = .fold) : internalStep s = .next (folded s) := by
  simp [internalStep, h, foldStep]

/-- If an internal step answers a next state, it is one of the six effects. -/
theorem internalStep_effect {s u : State} (h : internalStep s = .next u) : InternalEffect s u := by
  cases hf : s.fsm with
  | idle | absorb | done | fault =>
    rw [internalStep_ready (by simp [hf])] at h
    cases h
    exact .nothing (by simp [hf])
  | load =>
    by_cases hb : s.bufLen = 64
    · rw [internalStep_load hf hb] at h
      cases h
      exact .loaded hf hb
    · rw [internalStep_loadFault hf hb] at h
      cases h
      exact .loadFault hf hb
  | expand =>
    by_cases hr : 16 ≤ s.t.toNat ∧ s.t.toNat ≤ 79
    · rw [internalStep_expand hf hr.1 hr.2] at h
      cases h
      exact .expanded hf hr.1 hr.2
    · simp [internalStep, hf, expandStep, hr] at h
  | round =>
    by_cases hr : s.t.toNat ≤ 79
    · rw [internalStep_round hf hr] at h
      cases h
      exact .rounded hf hr
    · simp [internalStep, hf, roundStep, hr] at h
  | fold =>
    rw [internalStep_fold hf] at h
    cases h
    exact .folded hf

/-- An internal step leaves the host's actions alone. -/
theorem InternalEffect.inputs_eq {s u : State} (h : InternalEffect s u) : u.inputs = s.inputs := by
  cases h <;> simp

/-- An internal step gives no response. -/
theorem InternalEffect.rsp_eq {s u : State} (h : InternalEffect s u) : u.rsp = s.rsp := by
  cases h <;> simp

/-! ### The step -/

@[simp] theorem offered_command (cw : CommandWord) : (HostAction.command cw).offered = some cw := rfl
@[simp] theorem offered_offer (cw : CommandWord) : (HostAction.offer cw).offered = some cw := rfl
@[simp] theorem offered_nothing : HostAction.nothing.offered = none := rfl
@[simp] theorem offered_reset : HostAction.reset.offered = none := rfl

/-- The word offered next is that of the action at the head of the host's list. -/
theorem offeredWord_cons {s : State} {a : HostAction} {rest : List HostAction} (h : s.inputs = a :: rest) :
    offeredWord s = a.offered := by
  simp [offeredWord, h]

theorem offeredWord_nil {s : State} (h : s.inputs = []) : offeredWord s = none := by
  simp [offeredWord, h]

/-- What the host's list holds after a step that accepts no command and is no reset: a held command stays, a step of
silence and a word offered for one step only are used up. -/
def heldInputs : List HostAction → List HostAction
  | .nothing :: rest | .offer _ :: rest => rest
  | l => l

/-- Everything a step can do when it answers a next state. -/
inductive StepEffect (s : State) : State → Prop
  | reset (rest : List HostAction) : s.inputs = .reset :: rest → StepEffect s (resetStep (beginStep rest s))
  | command (a : HostAction) (cw : CommandWord) (rest : List HostAction) (i : Instr) (u : State) : s.inputs = a :: rest →
      a.offered = some cw → s.fsm.ready = true → decode cw = .ok i → CommandEffect i (beginStep rest s) u → StepEffect s u
  | illegal (a : HostAction) (cw : CommandWord) (rest : List HostAction) (e : DecodeError) : s.inputs = a :: rest →
      a.offered = some cw → s.fsm.ready = true → decode cw = .error e → StepEffect s (refuseIllegal (beginStep rest s))
  | internal (u : State) : s.inputs.head? ≠ some .reset →
      (s.fsm.ready = true → offeredWord s = none) →
      InternalEffect (beginStep (heldInputs s.inputs) s) u → StepEffect s u

theorem step_reset {s : State} {rest : List HostAction} (h : s.inputs = .reset :: rest) :
    step s = .next (resetStep (beginStep rest s)) := by
  simp [step, portStep, h]

/-- A ready core accepts the word offered, held or not. -/
theorem step_accepts {s : State} {a : HostAction} {cw : CommandWord} {rest : List HostAction} (h : s.inputs = a :: rest)
    (ha : a.offered = some cw) (hr : s.fsm.ready = true) : step s = acceptWord cw (beginStep rest s) := by
  cases a with
  | command w | offer w => cases ha; simp [step, portStep, h, cmdReady, hr]
  | reset | nothing => cases ha

/-- A step that accepts no command and is no reset is the sequencer's internal step. -/
theorem step_internal {s : State} (h : s.inputs.head? ≠ some .reset)
    (hc : s.fsm.ready = true → offeredWord s = none) :
    step s = internalStep (beginStep (heldInputs s.inputs) s) := by
  unfold step portStep
  cases hi : s.inputs with
  | nil => rfl
  | cons a rest =>
    cases a with
    | reset => exact absurd (by simp [hi]) h
    | nothing => rfl
    | command cw | offer cw =>
      have : s.fsm.ready = false := by
        cases hr : s.fsm.ready with
        | false => rfl
        | true => exact absurd (hc hr) (by simp [offeredWord_cons hi])
      simp [cmdReady, this, heldInputs]

/-- A busy core that is not reset takes its internal step. -/
theorem step_busy {s : State} (h : s.inputs.head? ≠ some .reset) (hb : s.fsm.ready = false) :
    step s = internalStep (beginStep (heldInputs s.inputs) s) :=
  step_internal h fun hr => by simp [hb] at hr

/-- If a step answers a next state, it is one of the four effects. -/
theorem step_effect {s u : State} (h : step s = .next u) : StepEffect s u := by
  have internal (hr : s.inputs.head? ≠ some .reset)
      (hc : s.fsm.ready = true → offeredWord s = none) : StepEffect s u := by
    rw [step_internal hr hc] at h
    exact .internal u hr hc (internalStep_effect h)
  cases hi : s.inputs with
  | nil => exact internal (by simp [hi]) fun _ => offeredWord_nil hi
  | cons a rest =>
    cases a with
    | nothing => exact internal (by simp [hi]) fun _ => offeredWord_cons hi
    | reset =>
      rw [step_reset hi] at h
      cases h
      exact .reset rest hi
    | command cw | offer cw =>
      cases hr : s.fsm.ready with
      | false => exact internal (by simp [hi]) fun h => by simp [hr] at h
      | true =>
        rw [step_accepts hi rfl hr, acceptWord] at h
        split at h
        · rename_i i hd
          exact .command _ cw rest i u hi rfl hr hd (exec_effect h)
        · rename_i e hd
          cases h
          exact .illegal _ cw rest e hi rfl hr hd

end Sys2Proof.Machine
end

