-- ==== Sys2Proof/Laws/Run.lean ====
section
/-! SUPPORT. Runs of several steps: splitting them, what the host's list holds while the core is busy, and the two long phases
of a Block computation, the 64 EXPAND steps and the 80 ROUND steps (43_message_scheduler.md R107, 44_compressor.md R115). -/

namespace Sys2Proof.Machine

/-! ### Splitting a run -/

@[simp] theorem run_zero (s : State) : Sys2Proof.core.run 0 s = .next s := rfl

/-- A run of one step more, its first step split off. -/
theorem run_cons (s : State) (n : Nat) : Sys2Proof.core.run (n + 1) s =
    match step s with
    | .next u => Sys2Proof.core.run n u
    | .fault r => .fault r
    | .refused r => .refused r := by
  refine (Host.Core.run.eq_2 Sys2Proof.core s n).trans ?_
  have : Sys2Proof.core.step s = step s := rfl
  rw [this]
  cases step s <;> rfl

theorem run_succ {s u : State} (n : Nat) (h : step s = .next u) : Sys2Proof.core.run (n + 1) s = Sys2Proof.core.run n u := by
  rw [run_cons, h]

/-- A run that does not stop takes a first step. -/
theorem step_of_run {s u : State} {n : Nat} (h : Sys2Proof.core.run (n + 1) s = .next u) :
    ∃ v, step s = .next v ∧ Sys2Proof.core.run n v = .next u := by
  rw [run_cons] at h
  split at h
  · exact ⟨_, ‹_›, h⟩
  · cases h
  · cases h

theorem responses_succ {s u : State} (n : Nat) (h : step s = .next u) :
    responses (n + 1) s = u.rsp.toList ++ responses n u := by
  rw [responses, h]

/-- A run split in two. -/
theorem run_add : ∀ (m n : Nat) {s u : State}, Sys2Proof.core.run m s = .next u →
    Sys2Proof.core.run (m + n) s = Sys2Proof.core.run n u
  | 0, n, s, u, h => by cases h; rw [Nat.zero_add]
  | m + 1, n, s, u, h => by
    obtain ⟨v, hs, hr⟩ := step_of_run h
    rw [show m + 1 + n = m + n + 1 by omega, run_succ (m + n) hs]
    exact run_add m n hr

/-- The responses of a run split in two. -/
theorem responses_add : ∀ (m n : Nat) {s u : State}, Sys2Proof.core.run m s = .next u →
    responses (m + n) s = responses m s ++ responses n u
  | 0, n, s, u, h => by cases h; rw [Nat.zero_add]; rfl
  | m + 1, n, s, u, h => by
    obtain ⟨v, hs, hr⟩ := step_of_run h
    rw [show m + 1 + n = m + n + 1 by omega, responses_succ _ hs, responses_succ _ hs, responses_add m n hr,
      List.append_assoc]

/-- One step, appended to a run. -/
theorem run_snoc {n : Nat} {s u v : State} (h : Sys2Proof.core.run n s = .next u) (hs : step u = .next v) :
    Sys2Proof.core.run (n + 1) s = .next v := by
  rw [run_add n 1 h, run_succ 0 hs, run_zero]

theorem responses_snoc {n : Nat} {s u v : State} (h : Sys2Proof.core.run n s = .next u) (hs : step u = .next v) :
    responses (n + 1) s = responses n s ++ v.rsp.toList := by
  rw [responses_add n 1 h, responses_succ 0 hs, responses, List.append_nil]

/-! ### The host while the core is busy -/

/-- With no reset among the first `n` actions, none is at the head during the first `n` busy steps. -/
theorem heldInputs_head : ∀ (k n : Nat) (l : List HostAction), HostAction.reset ∉ l.take n → k < n →
    (heldInputs^[k] l).head? ≠ some .reset
  | 0, n, [], _, _ => by simp
  | 0, n + 1, a :: rest, h, _ => by
    simp only [List.take_succ_cons, List.mem_cons, not_or] at h
    simpa using Ne.symm h.1
  | k + 1, n, [], _, hk => heldInputs_head k n [] (by simp) (by omega)
  | k + 1, n + 1, .nothing :: rest, h, hk | k + 1, n + 1, .offer _ :: rest, h, hk => by
    simp only [List.take_succ_cons, List.mem_cons, not_or] at h
    exact heldInputs_head k n rest h.2 (by omega)
  | k + 1, n + 1, .command cw :: rest, h, hk => heldInputs_head k (n + 1) (.command cw :: rest) h (by omega)
  | _ + 1, n + 1, .reset :: rest, h, _ => by simp at h

/-- What later busy steps see. -/
theorem heldInputs_take : ∀ (k n : Nat) (l : List HostAction), HostAction.reset ∉ l.take (k + n) →
    HostAction.reset ∉ (heldInputs^[k] l).take n
  | 0, n, l, h => by simpa using h
  | k + 1, n, [], _ => heldInputs_take k n [] (by simp)
  | k + 1, n, .nothing :: rest, h | k + 1, n, .offer _ :: rest, h => by
    rw [show k + 1 + n = k + n + 1 by omega, List.take_succ_cons] at h
    exact heldInputs_take k n rest fun hm => h (List.mem_cons_of_mem _ hm)
  | k + 1, n, .command cw :: rest, h => by
    refine heldInputs_take k n (.command cw :: rest) fun hm => h ?_
    exact (List.take_sublist_take_left (by omega)).subset hm
  | k + 1, n, .reset :: rest, h => by
    rw [show k + 1 + n = k + n + 1 by omega, List.take_succ_cons] at h
    exact absurd List.mem_cons_self h

/-! ### The 64 EXPAND steps -/

/-- What a busy run of `j` EXPAND or ROUND steps leaves alone, and what it makes of the host's list. -/
structure KeepsBlock (j : Nat) (s u : State) : Prop where
  h : u.h = s.h
  buf : u.buf = s.buf
  bufLen : u.bufLen = s.bufLen
  len : u.len = s.len
  fin : u.fin = s.fin
  cause : u.cause = s.cause
  inputs : u.inputs = heldInputs^[j] s.inputs
  draws : u.draws = s.draws

/-- `j` EXPAND steps from index 16 add `j` words to the Schedule. -/
theorem expand_phase {s : State} {m : List Word} (hm : m.length = 16) (hf : s.fsm = .expand) (ht : s.t.toNat = 16)
    (hw : HoldsSchedule s.w m 16) (hn : HostAction.reset ∉ s.inputs.take 64) :
    ∀ j ≤ 64, ∃ u : State, Sys2Proof.core.run j s = .next u ∧ responses j s = [] ∧ KeepsBlock j s u ∧ u.work = s.work ∧
      HoldsSchedule u.w m (16 + j) ∧ (j < 64 → u.fsm = .expand ∧ u.t.toNat = 16 + j) ∧ (j = 64 → u.fsm = .round ∧ u.t = 0) := by
  intro j
  induction j with
  | zero => exact fun _ => ⟨s, rfl, rfl, ⟨rfl, rfl, rfl, rfl, rfl, rfl, rfl, rfl⟩, rfl, hw, fun _ => ⟨hf, ht⟩, by simp⟩
  | succ j ih =>
    intro hj
    obtain ⟨u, hr, hrsp, hk, hwork, hsch, hlt, -⟩ := ih (by omega)
    obtain ⟨hfu, htu⟩ := hlt (by omega)
    have hstep : step u = .next (expanded (beginStep (heldInputs u.inputs) u)) := by
      rw [step_busy (by rw [hk.inputs]; exact heldInputs_head j 64 _ hn (by omega)) (by simp [hfu])]
      exact internalStep_expand (by simpa using hfu) (by simp [htu]) (by simp [htu]; omega)
    refine ⟨_, run_snoc hr hstep, by rw [responses_snoc hr hstep, hrsp]; rfl, ?_, hwork, ?_, fun h => ?_, fun h => ?_⟩
    · exact ⟨hk.h, hk.buf, hk.bufLen, hk.len, hk.fin, hk.cause,
        by rw [Function.iterate_succ_apply', ← hk.inputs]; rfl, hk.draws⟩
    · have := holdsSchedule_expand hm (by omega) (by omega) hsch
      rw [expanded_w, beginStep_t, beginStep_w, htu, ← Nat.add_assoc]
      exact this
    · rw [expanded_fsm, expanded_t, beginStep_t, beginStep_fsm, if_neg (by omega), if_neg (by omega)]
      exact ⟨hfu, by simp; omega⟩
    · rw [expanded_fsm, expanded_t, beginStep_t, if_pos (by omega), if_pos (by omega)]
      exact ⟨rfl, rfl⟩

/-! ### The 80 ROUND steps -/

/-- `j` ROUND steps from round 0 are the first `j` rounds of `compress` (44_compressor.md R115). -/
theorem round_phase {s : State} {m : List Word} (hf : s.fsm = .round) (ht : s.t = 0)
    (hw : HoldsSchedule s.w m 80) (hn : HostAction.reset ∉ s.inputs.take 80) :
    ∀ j ≤ 80, ∃ u : State, Sys2Proof.core.run j s = .next u ∧ responses j s = [] ∧ KeepsBlock j s u ∧ u.w = s.w ∧
      u.work = runRounds s.work (expandBlock m) j ∧ (j < 80 → u.fsm = .round ∧ u.t.toNat = j) ∧
      (j = 80 → u.fsm = .fold ∧ u.t = 0) := by
  intro j
  induction j with
  | zero =>
    exact fun _ => ⟨s, rfl, rfl, ⟨rfl, rfl, rfl, rfl, rfl, rfl, rfl, rfl⟩, rfl, rfl, fun _ => ⟨hf, by simp [ht]⟩, by simp⟩
  | succ j ih =>
    intro hj
    obtain ⟨u, hr, hrsp, hk, huw, hwork, hlt, -⟩ := ih (by omega)
    obtain ⟨hfu, htu⟩ := hlt (by omega)
    have hstep : step u = .next (rounded (beginStep (heldInputs u.inputs) u)) := by
      rw [step_busy (by rw [hk.inputs]; exact heldInputs_head j 80 _ hn (by omega)) (by simp [hfu])]
      exact internalStep_round (by simpa using hfu) (by simp [htu]; omega)
    refine ⟨_, run_snoc hr hstep, by rw [responses_snoc hr hstep, hrsp]; rfl, ?_, huw, ?_, fun h => ?_, fun h => ?_⟩
    · exact ⟨hk.h, hk.buf, hk.bufLen, hk.len, hk.fin, hk.cause,
        by rw [Function.iterate_succ_apply', ← hk.inputs]; rfl, hk.draws⟩
    · rw [rounded_work, beginStep_t, beginStep_work, beginStep_w, htu, huw, hw j (by omega) (by omega), hwork,
        runRounds_succ]
    · rw [rounded_fsm, rounded_t, beginStep_t, beginStep_fsm, if_neg (by omega), if_neg (by omega)]
      exact ⟨hfu, by simp; omega⟩
    · rw [rounded_fsm, rounded_t, beginStep_t, if_pos (by omega), if_pos (by omega)]
      exact ⟨rfl, rfl⟩

end Sys2Proof.Machine
end

