-- ==== Sys2Proof/Tests/Slice0.lean ====
section
/-! SUPPORT. Tests of single steps and pure functions, with expected values from 95_test_vectors.md and from the worked
examples of the rules, and one witness for the hypotheses of every statement. -/

namespace Sys2Proof.Tests

open Sys2Proof Sys2Proof.Machine

/-! ### Helpers -/

/-- The outcome is a next state with the property `p`. -/
def nextIs (o : Host.Outcome State Fault Refusal) (p : State → Bool) : Bool :=
  match o with
  | .next s => p s
  | .fault _ => false
  | .refused _ => false

/-- The outcome is this fault of the model. -/
def faultIs (o : Host.Outcome State Fault Refusal) (r : Fault) : Bool :=
  match o with
  | .next _ => false
  | .fault q => r == q
  | .refused _ => false

/-- A state in the sequencer state `f`, with `BUFLEN = n`, `LEN = bits`, and the Digest of "abc" in `H`. -/
def inPhase (f : Fsm) (n bits : Nat) : State where
  h := #v[0xA9993E36, 0x4706816A, 0xBA3E2571, 0x7850C26C, 0x9CD0D89D]
  work := ⟨1, 2, 3, 4, 5⟩
  w := Vector.replicate 80 6
  buf := [(0, 0x61), (1, 0x62), (2, 0x63)]
  bufLen := BitVec.ofNat 7 n
  len := BitVec.ofNat 64 bits
  t := 0
  fsm := f
  fin := .none
  cause := if f = .fault then .illegalCommand else .none
  inputs := []
  rsp := none
  draws := 0

/-- The same state in EXPAND or ROUND with `T = t`. -/
def atIndex (f : Fsm) (t : Nat) : State := { inPhase f 64 512 with t := BitVec.ofNat 7 t }

/-- The same state with the host about to offer `cw`. -/
def offering (cw : CommandWord) (s : State) : State := { s with inputs := [.command cw] }

/-- The same state with the host about to offer `cw` for one step only. -/
def offeringOnce (cw : CommandWord) (s : State) : State := { s with inputs := [.offer cw] }

/-- The same state with the host about to assert reset. -/
def resetting (s : State) : State := { s with inputs := [.reset] }

/-! ### Well-formedness: what the check refuses -/

theorem test_wf_rdword_bound : (Instr.rdword 5).wellFormed = false ∧ (Instr.rdword 4).wellFormed = true := by decide
theorem test_wf_rdbyte_bound : (Instr.rdbyte 20).wellFormed = false ∧ (Instr.rdbyte 19).wellFormed = true := by decide
theorem test_wf_rdhex_bound : (Instr.rdhex 40).wellFormed = false ∧ (Instr.rdhex 39).wellFormed = true := by decide

/-! ### Decoding: words written out from 30_encoding.md R66, bit 15 first -/

theorem test_decode_nop : decode 0b0000000000000000 = .ok .nop := by decide
theorem test_decode_init : decode 0b0001000000000000 = .ok .init := by decide
theorem test_decode_absorb : decode 0b0010000010100101 = .ok (.absorb 0b10100101) := by decide
theorem test_decode_final : decode 0b0011000000000000 = .ok .final := by decide
theorem test_decode_rdstat : decode 0b0100000000000000 = .ok .rdstat := by decide
theorem test_decode_rdword : decode 0b0101000000000011 = .ok (.rdword 3) := by decide
theorem test_decode_rdbyte : decode 0b0110000000010010 = .ok (.rdbyte 18) := by decide
theorem test_decode_rdhex : decode 0b0111000000100101 = .ok (.rdhex 37) := by decide

/-- V26, the illegal words of 95_test_vectors.md. -/
theorem test_illegal_words :
    ([0x0001, 0x00FF, 0x0100, 0x0F00, 0x1001, 0x2100, 0x2F61, 0x3001, 0x4001, 0x5005, 0x50FF, 0x6014, 0x7028, 0x7128,
      0x8000, 0x9000, 0xF000, 0xFFFF] : List CommandWord).all (fun cw => !legal cw) = true := by decide

/-- V26, the legal words. -/
theorem test_legal_words :
    ([0x0000, 0x1000, 0x2000, 0x2061, 0x20FF, 0x3000, 0x4000, 0x5000, 0x5004, 0x6000, 0x6013, 0x7000, 0x7027] :
      List CommandWord).all legal = true := by decide

/-- The host's table words: the rows of spec/opcode_table.json with their operand bits 0, and one illegal word. -/
theorem test_table_words :
    decodeTableWord 16 0x1000 = some .init ∧ decodeTableWord 16 0x2000 = some (.absorb 0) ∧
      decodeTableWord 16 0x7000 = some (.rdhex 0) ∧ decodeTableWord 16 0x5005 = none := by decide

/-! ### The commands (V18, V19, V25, V27, V29) -/

theorem test_nop_in_fault :
    nextIs (exec .nop (inPhase .fault 3 24)) (fun s => s.rsp == some ⟨false, 0⟩ && s.fsm == .fault) = true := by decide

theorem test_init_leaves_fault :
    nextIs (exec .init (inPhase .fault 3 24)) (fun s =>
      s.h == #v[0x67452301, 0xEFCDAB89, 0x98BADCFE, 0x10325476, 0xC3D2E1F0] && s.fsm == .absorb && s.cause == .none &&
        s.buf == [(0, 0x61), (1, 0x62), (2, 0x63)]) = true := by decide

/-- V18: the byte 63 of a Block. -/
theorem test_absorb_fills_the_block :
    nextIs (exec (.absorb 0x61) (inPhase .absorb 63 504)) (fun s =>
      s.buf.read 63 == 0x61 && s.bufLen == 64 && s.len == 512 && s.fsm == .load && s.rsp == some ⟨false, 0⟩) = true := by
  decide

/-- V27, steps 1 and 2. -/
theorem test_absorb_largest_length :
    nextIs (exec (.absorb 0xAA) (inPhase .absorb 62 (2 ^ 64 - 16))) (fun s => s.len == 0xFFFFFFFFFFFFFFF8) = true ∧
    nextIs (exec (.absorb 0xBB) (inPhase .absorb 63 (2 ^ 64 - 8))) (fun s =>
      s.fsm == .fault && s.cause == .inputTooLarge && s.bufLen == 63 && s.rsp == some ⟨true, 1⟩) = true := by decide

/-- V19: "abc", `BUFLEN = 3`. -/
theorem test_final_abc :
    nextIs (exec .final (inPhase .absorb 3 24)) (fun s =>
      s.buf == [(0, 0x61), (1, 0x62), (2, 0x63), (3, 0x80), (63, 0x18)] && s.fin == .last && s.bufLen == 64 &&
        s.fsm == .load) = true := by decide

/-- V19: `BUFLEN = 56`, no room for the length. -/
theorem test_final_no_room :
    nextIs (exec .final (inPhase .absorb 56 448)) (fun s =>
      s.buf.read 56 == 0x80 && s.buf.read 63 == 0 && s.fin == .extra) = true := by decide

/-- V31, V27: STATUS after three bytes, and in FAULT with `CAUSE = 1`, `BUFLEN = 63`. -/
theorem test_rdstat :
    nextIs (exec .rdstat (inPhase .absorb 3 24)) (fun s => s.rsp == some ⟨false, 0x00000301⟩) = true ∧
    nextIs (exec .rdstat { inPhase .fault 63 0 with cause := .inputTooLarge }) (fun s =>
      s.rsp == some ⟨false, 0x00003F07⟩) = true := by decide

theorem test_rdword :
    nextIs (exec (.rdword 4) (inPhase .done 0 24)) (fun s => s.rsp == some ⟨false, 0x9CD0D89D⟩) = true ∧
    nextIs (exec (.rdword 0) (inPhase .idle 0 0)) (fun s => s.rsp == some ⟨true, 4⟩ && s.fsm == .fault) = true := by decide

theorem test_rdbyte :
    nextIs (exec (.rdbyte 1) (inPhase .done 0 24)) (fun s => s.rsp == some ⟨false, 0x99⟩) = true ∧
    nextIs (exec (.rdbyte 19) (inPhase .done 0 24)) (fun s => s.rsp == some ⟨false, 0x9D⟩) = true := by decide

theorem test_rdhex :
    nextIs (exec (.rdhex 0) (inPhase .done 0 24)) (fun s => s.rsp == some ⟨false, 0x61⟩) = true ∧
    nextIs (exec (.rdhex 8) (inPhase .done 0 24)) (fun s => s.rsp == some ⟨false, 0x34⟩) = true := by decide

/-! ### The internal steps (V20 to V23, V28) -/

/-- The example of 42_block_splitter.md R100, and V28. -/
theorem test_load :
    nextIs (internalStep { inPhase .load 64 24 with buf := [(0, 0x61), (1, 0x62), (2, 0x63), (3, 0x80), (63, 0x18)] })
      (fun s => scheduleAt s.w 0 == 0x61626380 && scheduleAt s.w 15 == 0x18 && scheduleAt s.w 14 == 0 &&
        scheduleAt s.w 16 == 6 && s.work.e == 0x9CD0D89D && s.t == 16 && s.fsm == .expand) = true ∧
    nextIs (internalStep (inPhase .load 63 504)) (fun s =>
      s.fsm == .fault && s.cause == .internalInvariantViolation && s.rsp == none) = true := by decide

/-- The example of 43_message_scheduler.md R106. -/
theorem test_expand :
    nextIs (internalStep { atIndex .expand 16 with w := (Vector.replicate 80 0).set 0 0x61626380 }) (fun s =>
      scheduleAt s.w 16 == 0xC2C4C700 && s.t == 17 && s.fsm == .expand) = true ∧
    nextIs (internalStep (atIndex .expand 79)) (fun s => s.t == 0 && s.fsm == .round) = true := by decide

/-- V22: one round at each end of a group. -/
theorem test_round :
    nextIs (internalStep (atIndex .round 19)) (fun s => s.work == ⟨0x5A8279CA, 1, 0x80000000, 3, 4⟩) = true ∧
    nextIs (internalStep (atIndex .round 20)) (fun s => s.work == ⟨0x6ED9EBD1, 1, 0x80000000, 3, 4⟩) = true ∧
    nextIs (internalStep (atIndex .round 59)) (fun s => s.work == ⟨0x8F1BBD09, 1, 0x80000000, 3, 4⟩) = true ∧
    nextIs (internalStep (atIndex .round 79)) (fun s =>
      s.work == ⟨0xCA62C206, 1, 0x80000000, 3, 4⟩ && s.t == 0 && s.fsm == .fold) = true := by decide

/-- V22, last row: five all-ones registers, four carries discarded. -/
theorem test_round_carries :
    nextIs (internalStep { atIndex .round 0 with
      work := ⟨0xFFFFFFFF, 0xFFFFFFFF, 0xFFFFFFFF, 0xFFFFFFFF, 0xFFFFFFFF⟩, w := Vector.replicate 80 0xFFFFFFFF })
      (fun s => s.work.a == 0x5A827995) = true := by decide

/-- The examples of 44_compressor.md R119 ("abc") and R120 (a 56-byte message). -/
theorem test_fold :
    nextIs (internalStep { inPhase .fold 64 24 with
      h := #v[0x67452301, 0xEFCDAB89, 0x98BADCFE, 0x10325476, 0xC3D2E1F0], fin := .last
      work := ⟨0x42541B35, 0x5738D5E1, 0x21834873, 0x681E6DF6, 0xD8FDF6AD⟩ })
      (fun s => s.h == #v[0xA9993E36, 0x4706816A, 0xBA3E2571, 0x7850C26C, 0x9CD0D89D] && s.fsm == .done &&
        s.fin == .none && s.bufLen == 0) = true ∧
    nextIs (internalStep { inPhase .fold 64 448 with fin := .extra }) (fun s =>
      s.buf == [(62, 0x01), (63, 0xC0)] && s.bufLen == 64 && s.fin == .last && s.fsm == .load) = true := by decide

/-! ### The step and the ports (V30, V32) -/

/-- V30: an illegal word in phase ABSORB, and in phase FAULT. -/
theorem test_step_illegal_word :
    nextIs (step (offering 0x5005 (inPhase .absorb 0 0))) (fun s =>
      s.cause == .illegalCommand && s.rsp == some ⟨true, 3⟩ && s.inputs == []) = true ∧
    nextIs (step (offering 0x0001 { inPhase .fault 0 0 with cause := .sequenceError })) (fun s =>
      s.cause == .sequenceError && s.rsp == some ⟨true, 4⟩) = true := by decide

/-- A busy core leaves the word offered and takes its internal step. -/
theorem test_step_busy :
    nextIs (step (offering 0x4000 (atIndex .round 40))) (fun s =>
      s.t == 41 && s.rsp == none && s.inputs == [.command 0x4000]) = true := by decide

/-- 70_reset_and_hazards.md R172, first row: a word withdrawn before `cmd_ready` is not accepted; a ready core accepts it. -/
theorem test_step_withdrawn_word :
    nextIs (step (offeringOnce 0x4000 (atIndex .round 40))) (fun s =>
      s.t == 41 && s.rsp == none && s.inputs == []) = true ∧
    nextIs (step (offeringOnce 0x2061 (inPhase .idle 0 0))) (fun s =>
      s.cause == .sequenceError && s.rsp == some ⟨true, 4⟩ && s.inputs == []) = true := by decide

/-- V32: reset wins over a word offered behind it, in the middle of a Block. -/
theorem test_step_reset :
    nextIs (step { atIndex .round 40 with fin := .last, inputs := [.reset, .command 0x2061] }) (fun s =>
      s.fsm == .idle && s.bufLen == 0 && s.len == 0 && s.fin == .none && s.t == 0 && s.rsp == none &&
        s.inputs == [.command 0x2061]) = true := by decide

/-- The table word is what the very next step after reset runs. -/
theorem test_step_runs_the_table_word :
    nextIs (step (State.reset.withFetchWord 16 0x1000)) (fun s => s.fsm == .absorb && s.rsp == some ⟨false, 0⟩) = true ∧
    nextIs (step (State.reset.withFetchWord 16 0x2061)) (fun s => s.fsm == .fault && s.cause == .sequenceError) = true := by
  decide

/-! ### Memory -/

theorem test_memory_write_keeps_one_form :
    Memory.write [(1, 7), (3, 9)] 2 8 = [(1, 7), (2, 8), (3, 9)] ∧ Memory.write [(1, 7), (3, 9)] 3 0 = [(1, 7)] := by decide

/-! ### The pure functions -/

/-- V18. -/
theorem test_bit_encode :
    bitEncode [0x01, 0xFE] =
      [false, false, false, false, false, false, false, true, true, true, true, true, true, true, true, false] := by decide

/-- V19. -/
theorem test_pad_zeros :
    [0, 1, 7, 8, 24, 440, 446, 447, 448, 449, 504, 511, 512, 952, 960].map padZeros =
      [447, 446, 440, 439, 423, 7, 1, 0, 511, 510, 455, 448, 447, 7, 511] := by decide

/-- V21: `rotl`. -/
theorem test_rotl : rotl 0x12345678 5 = 0x468ACF02 ∧ rotl 0x80000001 1 = 3 := by decide

/-- V22: `f` over the three columns of the truth table. -/
theorem test_round_function :
    [0, 19, 20, 39, 40, 59, 60, 79].map (fun t => roundFunction t 0xF0F0F0F0 0xCCCCCCCC 0xAAAAAAAA) =
      [0xCACACACA, 0xCACACACA, 0x96969696, 0x96969696, 0xE8E8E8E8, 0xE8E8E8E8, 0x96969696, 0x96969696] := by decide

/-- V23: one Block of zeros, from the initial constants. -/
theorem test_compress :
    compress initialState (expandBlock (List.replicate 16 0)) =
      #v[0x92B404E5, 0x56588CED, 0x6C1ACD4E, 0xBF053F68, 0x09F73A93] := by decide +kernel

/-- V2: "abc". -/
theorem test_hash :
    (hashMessage [0x61, 0x62, 0x63]).toOption = some 0xa9993e364706816aba3e25717850c26c9cd0d89d := by decide +kernel

/-- V25, with leading zeros. -/
theorem test_assemble :
    assembleDigest #v[0, 0xF, 0x01234567, 0x89ABCDEF, 0xFFFFFFFF] = 0x000000000000000f0123456789abcdefffffffff := by decide

theorem test_digest_hex :
    (digestHexString #v[0, 0xF, 0x01234567, 0x89ABCDEF, 0xFFFFFFFF]).drop 14 =
      [0x30, 0x66, 0x30, 0x31, 0x32, 0x33, 0x34, 0x35, 0x36, 0x37, 0x38, 0x39, 0x61, 0x62, 0x63, 0x64, 0x65, 0x66, 0x66, 0x66,
        0x66, 0x66, 0x66, 0x66, 0x66, 0x66] := by decide

/-- The examples of 30_encoding.md R72. -/
theorem test_assembler_lines :
    (assembleLine ['A', 'B', 'S', 'O', 'R', 'B', ' ', '0', 'x', '6', '1']).toOption.map encode = some 0x2061 ∧
    (assembleLine ['R', 'D', 'B', 'Y', 'T', 'E', ' ', '1', '9', ' ', ';', 'x']).toOption.map encode = some 0x6013 ∧
    (assembleLine ['R', 'D', 'W', 'O', 'R', 'D', ' ', '5']).toOption = none := by decide

/-! ### Witnesses: concrete states and operands that meet the hypotheses of each statement -/

theorem witness_DecoderAcceptsExactlyLegalWords :
    decode 0x20FF = .ok (.absorb 0xFF) ∧ decode 0x5004 = .ok (.rdword 4) ∧ decode 0x6013 = .ok (.rdbyte 19) ∧
      legal 0x7027 = true ∧ legal 0x7028 = false := by decide

theorem witness_DecodeOfEncodeIsTheCommand :
    (Instr.rdword 4).wellFormed = true ∧ (Instr.rdbyte 19).wellFormed = true ∧ (Instr.rdhex 39).wellFormed = true ∧
      (Instr.absorb 255).wellFormed = true := by decide

theorem witness_AcceptedWordIsTheWordOfItsCommand :
    decode 0x2000 = .ok (.absorb 0) ∧ decode 0x7027 = .ok (.rdhex 39) := by decide

theorem witness_NopRespondsZeroAndChangesNothing :
    (inPhase .idle 0 0).fsm.ready = true ∧ (inPhase .fault 3 24).fsm.ready = true := by decide

theorem witness_RdstatRespondsStatus :
    (inPhase .absorb 63 504).fsm.ready = true ∧ (inPhase .fault 3 24).fsm.ready = true := by decide

theorem witness_InitBeginsAnIndependentComputation :
    (inPhase .idle 0 0).fsm.ready = true ∧ (inPhase .absorb 63 504).fsm.ready = true ∧ (inPhase .done 0 24).fsm.ready = true ∧
      (inPhase .fault 3 24).fsm.ready = true := by decide

theorem witness_ResetAndInitLeaveTheTabledValues : (inPhase .done 0 24).fsm.ready = true := by decide

theorem witness_AbsorbStoresOneMessageByte :
    (inPhase .fault 3 24).fsm = .fault ∧ (inPhase .idle 0 0).fsm = .idle ∧ (inPhase .done 0 24).fsm = .done ∧
    ((inPhase .absorb 63 (2 ^ 64 - 8)).fsm = .absorb ∧ 2 ^ 64 - 1 < (inPhase .absorb 63 (2 ^ 64 - 8)).len.toNat + 8) ∧
    ((inPhase .absorb 0 0).fsm = .absorb ∧ (inPhase .absorb 0 0).len.toNat + 8 ≤ 2 ^ 64 - 1 ∧
      (inPhase .absorb 0 0).bufLen.toNat ≤ 63) ∧
    ((inPhase .absorb 63 (2 ^ 64 - 520)).fsm = .absorb ∧ (inPhase .absorb 63 (2 ^ 64 - 520)).len.toNat + 8 ≤ 2 ^ 64 - 1 ∧
      (inPhase .absorb 63 (2 ^ 64 - 520)).bufLen.toNat ≤ 63) := by decide

theorem witness_FinalPadsTheLastBlock :
    (inPhase .fault 3 24).fsm = .fault ∧ (inPhase .idle 0 0).fsm = .idle ∧ (inPhase .done 0 24).fsm = .done ∧
    [0, 55, 56, 63].all (fun n => (inPhase .absorb n (8 * n)).fsm == .absorb &&
      decide ((inPhase .absorb n (8 * n)).bufLen.toNat ≤ 63)) = true := by decide

theorem witness_AbsorbAndFinalStopOutsideTheBuffer :
    (inPhase .absorb 64 512).fsm = .absorb ∧ 64 ≤ (inPhase .absorb 64 512).bufLen.toNat ∧
      64 ≤ (inPhase .absorb 127 512).bufLen.toNat ∧ (inPhase .absorb 64 (2 ^ 64 - 9)).len.toNat + 8 ≤ 2 ^ 64 - 1 ∧
      faultIs (exec (.absorb 0) (inPhase .absorb 64 512)) .bufferIndexOutOfRange = true := by decide

theorem witness_RdwordReadsOneStateWord :
    (inPhase .fault 3 24).fsm = .fault ∧
    ((inPhase .idle 0 0).fsm.ready = true ∧ (inPhase .idle 0 0).fsm ≠ .fault ∧ 5 ≤ (5 : Byte).toNat) ∧
    ((inPhase .absorb 3 24).fsm = .absorb ∧ (4 : Byte).toNat ≤ 4) ∧ (inPhase .idle 0 0).fsm = .idle ∧
    ((inPhase .done 0 24).fsm = .done ∧ (4 : Byte).toNat < 5) := by decide

theorem witness_RdbyteReadsOneDigestByte :
    (inPhase .fault 3 24).fsm = .fault ∧
    ((inPhase .done 0 24).fsm.ready = true ∧ (inPhase .done 0 24).fsm ≠ .fault ∧ 20 ≤ (20 : Byte).toNat) ∧
    ((inPhase .absorb 3 24).fsm = .absorb ∧ (19 : Byte).toNat ≤ 19) ∧ (inPhase .idle 0 0).fsm = .idle ∧
    ((inPhase .done 0 24).fsm = .done ∧ (19 : Byte).toNat / 4 < 5) := by decide

theorem witness_RdhexReadsOneHexCharacter :
    (inPhase .fault 3 24).fsm = .fault ∧
    ((inPhase .absorb 3 24).fsm.ready = true ∧ (inPhase .absorb 3 24).fsm ≠ .fault ∧ 40 ≤ (40 : Byte).toNat) ∧
    ((inPhase .absorb 3 24).fsm = .absorb ∧ (39 : Byte).toNat ≤ 39) ∧ (inPhase .idle 0 0).fsm = .idle ∧
    ((inPhase .done 0 24).fsm = .done ∧ (39 : Byte).toNat / 8 < 5) := by decide

theorem witness_FaultPhaseKeepsTheFirstCause :
    (offering 0x2061 (inPhase .fault 3 24)).fsm = .fault ∧
    (offering 0x2061 (inPhase .fault 3 24)).inputs = [.command 0x2061] ∧
    ((HostAction.command 0x2061).offered = some 0x2061 ∧ (HostAction.offer 0x2061).offered = some 0x2061) ∧
    ((0x2061 : CommandWord) ≠ 0x0000 ∧ (0x2061 : CommandWord) ≠ 0x1000 ∧ (0x2061 : CommandWord) ≠ 0x4000) ∧
    (offering 0x4000 (inPhase .fault 3 24)).inputs = [.command 0x4000] ∧
    (offering 0x0000 (inPhase .fault 3 24)).inputs = [.command 0x0000] ∧
    (offering 0x1000 (inPhase .fault 3 24)).inputs = [.command 0x1000] := by decide

theorem witness_IllegalWordRaisesIllegalCommand :
    (offering 0x5005 (inPhase .idle 0 0)).fsm = .idle ∧ (offering 0x5005 (inPhase .absorb 63 504)).fsm = .absorb ∧
    (offering 0x5005 (inPhase .done 0 24)).fsm = .done ∧
    (offering 0x5005 (inPhase .idle 0 0)).inputs = [.command 0x5005] ∧
    ((HostAction.command 0x5005).offered = some 0x5005 ∧ (HostAction.offer 0x5005).offered = some 0x5005) ∧
    legal 0x5005 = false := by decide

theorem witness_CommandOutOfPhaseRaisesSequenceError :
    (inPhase .idle 0 0).fsm = .idle ∧ (inPhase .done 0 24).fsm = .done ∧ (inPhase .absorb 3 24).fsm = .absorb ∧
    (Instr.absorb 0).wellFormed = true ∧ Instr.final.wellFormed = true ∧ (Instr.rdword 4).wellFormed = true ∧
    (Instr.rdbyte 19).wellFormed = true ∧ (Instr.rdhex 39).wellFormed = true := by decide

/-- A fault taken by a command, and one taken by the LOAD step. -/
theorem witness_TakingAFaultIsPrecise :
    (∃ u, StepsTo (offering 0x3000 (inPhase .idle 0 0)) u ∧ (inPhase .idle 0 0).fsm.ready = true ∧ u.fsm = .fault) ∧
    (∃ u, StepsTo (inPhase .load 63 504) u ∧ (inPhase .load 63 504).fsm.ready = false ∧ u.fsm = .fault) :=
  ⟨⟨_, rfl, rfl, rfl⟩, ⟨_, rfl, rfl, rfl⟩⟩

theorem witness_FaultIsLeftOnlyByInitOrReset :
    (∃ u, StepsTo (offering 0x1000 (inPhase .fault 3 24)) u ∧ u.fsm = .absorb) ∧
    (∃ u, StepsTo (resetting (inPhase .fault 3 24)) u ∧ u.fsm = .idle) ∧ (inPhase .fault 3 24).fsm = .fault :=
  ⟨⟨_, rfl, rfl⟩, ⟨_, rfl, rfl⟩, rfl⟩

theorem witness_StepRunsTheDecodedCommand :
    (offering 0x6013 (inPhase .done 0 24)).fsm.ready = true ∧
    (offering 0x6013 (inPhase .done 0 24)).inputs = [.command 0x6013] ∧
    (HostAction.command 0x6013).offered = some 0x6013 ∧ (offeringOnce 0x6013 (inPhase .done 0 24)).inputs = [.offer 0x6013] ∧
    (HostAction.offer 0x6013).offered = some 0x6013 ∧ decode 0x6013 = .ok (.rdbyte 19) := by decide

theorem witness_StepRunsTheOfferedTableWord :
    (inPhase .done 0 24).fsm.ready = true ∧ decodeTableWord 16 0x7027 = some (.rdhex 39) := by decide

theorem witness_BusyCoreLeavesTheCommandOffered :
    (offering 0x4000 (atIndex .expand 79)).fsm.ready = false ∧
    (offering 0x4000 (atIndex .expand 79)).inputs = [.command 0x4000] ∧
    ∃ u, StepsTo (offering 0x4000 (atIndex .expand 79)) u := ⟨by decide, by decide, _, rfl⟩

theorem witness_WithdrawnWordIsNotAccepted :
    (offeringOnce 0x4000 (atIndex .expand 79)).fsm.ready = false ∧
    (offeringOnce 0x4000 (atIndex .expand 79)).inputs = [.offer 0x4000] ∧
    ∃ u, StepsTo (offeringOnce 0x4000 (atIndex .expand 79)) u := ⟨by decide, by decide, _, rfl⟩

theorem witness_ReadyCoreWithNoCommandDoesNothing :
    (inPhase .absorb 3 24).fsm.ready = true ∧ (inPhase .absorb 3 24).inputs = [] ∧
    (State.inputs { inPhase .done 0 24 with inputs := [.nothing, .reset] }).head? = some .nothing := by decide

theorem witness_ResetStepWinsInEveryState :
    (resetting (atIndex .round 40)).inputs = [.reset] ∧ (resetting (inPhase .done 0 24)).inputs = [.reset] := by decide

theorem witness_LoadSplitsTheBlock :
    (inPhase .load 64 512).fsm = .load ∧ (inPhase .load 64 512).bufLen.toNat = 64 ∧
    (inPhase .load 63 504).bufLen.toNat ≠ 64 ∧ (inPhase .load 65 504).bufLen.toNat ≠ 64 := by decide

theorem witness_ExpandWritesOneScheduleWord :
    (atIndex .expand 16).fsm = .expand ∧ (atIndex .expand 16).t.toNat = 16 ∧ (atIndex .expand 79).t.toNat = 79 := by decide

theorem witness_RoundUpdatesTheWorkingRegisters :
    (atIndex .round 0).fsm = .round ∧ (atIndex .round 0).t.toNat = 0 ∧ (atIndex .round 79).t.toNat = 79 := by decide

theorem witness_RoundConstantsByGroup :
    [0, 19, 20, 39, 40, 59, 60, 79].map roundConstant =
      [0x5A827999, 0x5A827999, 0x6ED9EBA1, 0x6ED9EBA1, 0x8F1BBCDC, 0x8F1BBCDC, 0xCA62C1D6, 0xCA62C1D6] := by decide

/-- Bits 0 and 31 at the ends of each group: the hypotheses are plain ranges. -/
theorem witness_RoundFunctionsFollowTheTruthTable : (79 ≤ 79 ∧ 31 < 32) ∧ (0 ≤ 79 ∧ 0 < 32) := by decide

theorem witness_FoldAddsIntoStateAndContinues :
    (inPhase .fold 64 512).fsm = .fold ∧ (inPhase .fold 64 512).fin = .none ∧
    (State.fin { inPhase .fold 64 512 with fin := .last }) = .last ∧
    (State.fin { inPhase .fold 64 512 with fin := .extra }) = .extra := by decide

theorem witness_ExpandAndRoundStopOutsideTheSchedule :
    (atIndex .expand 15).fsm = .expand ∧ (atIndex .expand 15).t.toNat < 16 ∧ 79 < (atIndex .expand 80).t.toNat ∧
    (atIndex .round 80).fsm = .round ∧ 79 < (atIndex .round 80).t.toNat ∧ 79 < (atIndex .round 127).t.toNat := by decide

/-- Each of the three ways in which `H` is written: INIT, FOLD, and a reset step (whose values are free). -/
theorem witness_StateRegistersAreWrittenOnlyByInitAndFold :
    (∃ u, StepsTo (offering 0x1000 (inPhase .done 0 24)) u ∧ u.h ≠ (inPhase .done 0 24).h) ∧
    (∃ u, StepsTo (inPhase .fold 64 512) u ∧ u.h ≠ (inPhase .fold 64 512).h) ∧
    (∃ s u, s.inputs.head? = some .reset ∧ StepsTo s u ∧ u.h ≠ s.h) := by
  refine ⟨⟨_, rfl, by decide⟩, ⟨_, rfl, by decide⟩, ?_⟩
  by_cases h : drawnState 0 = Vector.replicate 5 0
  · exact ⟨resetting (inPhase .done 0 24), _, rfl, rfl,
      fun e => absurd (h.symm.trans e : Vector.replicate 5 0 = (inPhase .done 0 24).h) (by decide)⟩
  · exact ⟨resetting State.reset, _, rfl, rfl, h⟩

theorem witness_DataRegistersAreWrittenOnlyByTheirTransitions :
    (∃ u, StepsTo (inPhase .load 64 512) u ∧ u.work ≠ (inPhase .load 64 512).work ∧ u.w ≠ (inPhase .load 64 512).w) ∧
    (∃ u, StepsTo (atIndex .expand 16) u ∧ u.w ≠ (atIndex .expand 16).w) ∧
    (∃ u, StepsTo (atIndex .round 79) u ∧ u.work ≠ (atIndex .round 79).work) ∧
    (∃ u, StepsTo (offering 0x2064 (inPhase .absorb 3 24)) u ∧ u.buf ≠ (inPhase .absorb 3 24).buf) ∧
    (∃ u, StepsTo (offering 0x3000 (inPhase .absorb 3 24)) u ∧ u.buf ≠ (inPhase .absorb 3 24).buf) ∧
    (∃ u, StepsTo { inPhase .fold 64 448 with fin := .extra } u ∧ u.buf ≠ (inPhase .fold 64 448).buf) :=
  ⟨⟨_, rfl, by decide, by decide⟩, ⟨_, rfl, by decide⟩, ⟨_, rfl, by decide⟩, ⟨_, rfl, by decide⟩, ⟨_, rfl, by decide⟩,
    ⟨_, rfl, by decide⟩⟩

/-- Each row of the transition table, `T` at the ends of its range. -/
theorem witness_BusyStatesFollowTheTransitionTable :
    (∃ u, StepsTo (inPhase .load 64 512) u) ∧ (∃ u, StepsTo (inPhase .load 63 504) u) ∧
    (∃ u, StepsTo (atIndex .expand 16) u) ∧ (∃ u, StepsTo (atIndex .expand 78) u) ∧ (∃ u, StepsTo (atIndex .expand 79) u) ∧
    (∃ u, StepsTo (atIndex .round 0) u) ∧ (∃ u, StepsTo (atIndex .round 78) u) ∧ (∃ u, StepsTo (atIndex .round 79) u) ∧
    (∃ u, StepsTo (inPhase .fold 64 512) u) ∧ (∃ u, StepsTo { inPhase .fold 64 448 with fin := .extra } u) ∧
    (∃ u, StepsTo { inPhase .fold 64 24 with fin := .last } u) ∧ (inPhase .load 64 512).inputs.head? ≠ some .reset :=
  ⟨⟨_, rfl⟩, ⟨_, rfl⟩, ⟨_, rfl⟩, ⟨_, rfl⟩, ⟨_, rfl⟩, ⟨_, rfl⟩, ⟨_, rfl⟩, ⟨_, rfl⟩, ⟨_, rfl⟩, ⟨_, rfl⟩, ⟨_, rfl⟩, by decide⟩

/-- The invariant holds in a state of phase ABSORB, and of FAULT, that is not the reset state. -/
theorem witness_inv_ready : Inv (inPhase .absorb 3 24) ∧ Inv (inPhase .fault 3 24) ∧ Inv (inPhase .done 0 24) :=
  ⟨⟨by decide, by simp [ControlInv, inPhase], by decide, by decide⟩,
    ⟨by decide, by simp [ControlInv, inPhase], by decide, by decide⟩,
    ⟨by decide, by simp [ControlInv, inPhase], by decide, by decide⟩⟩

/-- The invariant holds in busy states. -/
theorem witness_inv_busy :
    Inv (inPhase .load 64 512) ∧ Inv (atIndex .expand 79) ∧ Inv (atIndex .round 0) ∧ Inv (inPhase .fold 64 512) :=
  ⟨⟨by decide, by simp [ControlInv, inPhase], by decide, by decide⟩,
    ⟨by decide, by simp [ControlInv, inPhase, atIndex], by decide, by decide⟩,
    ⟨by decide, by simp [ControlInv, inPhase, atIndex], by decide, by decide⟩,
    ⟨by decide, by simp [ControlInv, inPhase], by decide, by decide⟩⟩

theorem witness_EveryStepKeepsTheInvariant :
    Inv (inPhase .load 64 512) ∧ ∃ u, StepsTo (inPhase .load 64 512) u := ⟨witness_inv_busy.1, _, rfl⟩

theorem witness_MachineNeverStopsUnderTheInvariant : Inv (atIndex .expand 79) := witness_inv_busy.2.1

theorem witness_ReadyCoreIsQuiescent :
    (Inv (inPhase .absorb 3 24) ∧ (inPhase .absorb 3 24).fsm.ready = true ∧ (inPhase .absorb 3 24).fsm = .absorb) ∧
    (Inv (inPhase .done 0 24) ∧ (inPhase .done 0 24).fsm = .done) ∧
    (Inv (atIndex .round 0) ∧ (atIndex .round 0).fsm.ready = false) :=
  ⟨⟨witness_inv_ready.1, by decide, by decide⟩, ⟨witness_inv_ready.2.2, by decide⟩, witness_inv_busy.2.2.1, by decide⟩

theorem witness_BlockComputationIsCompress :
    (inPhase .load 64 512).fsm = .load ∧ (inPhase .load 64 512).bufLen.toNat = 64 ∧
      HostAction.reset ∉ (inPhase .load 64 512).inputs.take 146 := by decide

theorem witness_BusyEpisodeEndsWithin292Steps :
    Inv (inPhase .load 64 512) ∧ (inPhase .load 64 512).fsm.ready = false ∧
      HostAction.reset ∉ (inPhase .load 64 512).inputs.take 292 := ⟨witness_inv_busy.1, by decide, by decide⟩

theorem witness_CommandSequenceComputesTheHash :
    8 * ([0x61, 0x62, 0x63] : List Byte).length < 2 ^ 64 ∧ (inPhase .fault 3 24).fsm.ready = true ∧
    (State.inputs { inPhase .fault 3 24 with inputs := offers (messageCommands [0x61, 0x62, 0x63]) }) =
      offers (messageCommands [0x61, 0x62, 0x63]) ∧
    offers (messageCommands []) = [.command 0x1000, .command 0x3000] ∧
    ((4 : Byte).toNat ≤ 4 ∧ (19 : Byte).toNat ≤ 19 ∧ (39 : Byte).toNat ≤ 39) := by decide

theorem witness_FinalRunsItsBlocksToDone :
    [0, 55, 56, 63].all (fun n =>
      let s := offering (encode .final) (inPhase .absorb n (8 * n))
      s.fsm == .absorb && decide (s.bufLen.toNat ≤ 63) && s.inputs == [.command (encode .final)]) = true := by decide

/-- Two states in phase IDLE with the same control registers and different data registers. -/
theorem witness_UnspecifiedResetValuesAreNeverRead :
    (inPhase .idle 0 0).fsm = .idle ∧
    SameControl (inPhase .idle 0 0) { inPhase .idle 0 0 with h := initialState, buf := [] } ∧
    (inPhase .idle 0 0).h ≠ initialState :=
  ⟨rfl, ⟨rfl, rfl, rfl, rfl, rfl, rfl, rfl, rfl⟩, by decide⟩

theorem witness_ComputationsAreIndependent :
    (offering 0x1000 (inPhase .fault 3 24)).fsm.ready = true ∧ (offering 0x1000 (inPhase .done 0 24)).fsm.ready = true ∧
    (offering 0x1000 (inPhase .fault 3 24)).inputs = [.command 0x1000] ∧
    (offeringOnce 0x1000 (inPhase .done 0 24)).inputs = [.offer 0x1000] ∧
    (offeringOnce 0x1000 (inPhase .done 0 24)).fsm.ready = true ∧
    ((HostAction.command 0x1000).offered = some 0x1000 ∧ (HostAction.offer 0x1000).offered = some 0x1000) := by decide

/-- Two states of phase ABSORB that differ in a byte beyond `BUFLEN` and in the working registers. -/
theorem witness_DeadDataStaysDead :
    Indistinguishable (inPhase .absorb 2 16) { inPhase .absorb 2 16 with buf := [(0, 0x61), (1, 0x62)], work := ⟨0, 0, 0, 0, 0⟩ } ∧
    (inPhase .absorb 2 16).buf ≠ [(0, 0x61), (1, 0x62)] :=
  ⟨⟨⟨rfl, rfl, rfl, rfl, rfl, rfl, rfl, rfl⟩, ⟨rfl, by decide⟩⟩, by decide⟩

theorem witness_BitEncoderKeepsBitOrder : 1 < ([0x01, 0xFE] : List Byte).length ∧ 7 ≤ 7 := by decide

/-- A Bitstream that fits, and one that does not. -/
theorem witness_PadAppendsOneZerosAndLength :
    ([true] : List Bool).length < 2 ^ 64 ∧ ∃ s : List Bool, 2 ^ 64 ≤ s.length :=
  ⟨by decide, List.replicate (2 ^ 64) false, by rw [List.length_replicate]⟩

theorem witness_PadInBytes :
    8 * (List.replicate 55 (0x61 : Byte)).length < 2 ^ 64 ∧ 8 * (List.replicate 56 (0x61 : Byte)).length < 2 ^ 64 := by decide

theorem witness_SplitGivesBigEndianWords :
    (∃ bs, splitBlocks (List.replicate 512 true) = .ok bs) ∧ ([] : List Bool).length = 0 ∧
    (List.replicate 511 true).length % 512 ≠ 0 ∧ (List.replicate 128 (0xFF : Byte)).length = 64 * (1 + 1) :=
  ⟨by rw [splitBlocks, if_neg (by rw [List.length_replicate]; decide)]; exact ⟨_, rfl⟩, by decide,
    by rw [List.length_replicate]; decide, List.length_replicate⟩

theorem witness_ExpandFollowsTheRecurrence : (List.replicate 16 (0xFFFFFFFF : Word)).length = 16 := by decide

theorem witness_CompressAddsEightyRounds : (expandBlock (List.replicate 16 0)).length = 80 := by decide +kernel

theorem witness_AssembleConcatenatesTheRegisters : 19 ≤ 19 ∧ 0 ≤ 19 := by decide

theorem witness_DigestViewsAgree : (4 ≤ 4 ∧ 3 ≤ 3) ∧ 19 ≤ 19 := by decide

/-- A Message that fits, and one that does not. -/
theorem witness_HashFailsOnlyOnOverlongInput :
    8 * ([0x61] : List Byte).length < 2 ^ 64 ∧ ∃ m : List Byte, 2 ^ 64 ≤ 8 * m.length :=
  ⟨by decide, List.replicate (2 ^ 61) 0, by rw [List.length_replicate]; decide⟩

theorem witness_WordOperatorsAsNumbers :
    rotl 0x80000000 1 = 0x00000001 ∧ rotl 0x12345678 31 = 0x091A2B3C ∧ (0 < 1 ∧ 1 < 32) ∧ (0 < 31 ∧ 31 < 32) := by decide

end Sys2Proof.Tests
end

section
/-! PROOFS. The operators on Words and the big-endian packing, as numbers (00_scope.md R14, R15). -/

namespace Sys2Proof.Machine

/-! ### The operators on Words -/

/-- The low `32 - n` bits move up and the high `n` bits come in below them; the two parts do not overlap, so
their `or` is a sum. -/
theorem toNat_rotl {n : Nat} (x : Word) (hn : n < 32) :
    (rotl x n).toNat = x.toNat * 2 ^ n % 2 ^ 32 + x.toNat / 2 ^ (32 - n) := by
  have hpow : 2 ^ 32 = 2 ^ (32 - n) * 2 ^ n := by rw [← pow_add, Nat.sub_add_cancel hn.le]
  have hshift : x.toNat * 2 ^ n % 2 ^ 32 = (x.toNat % 2 ^ (32 - n)) <<< n := by
    rw [hpow, Nat.mul_mod_mul_right, Nat.shiftLeft_eq]
  have hlow : x.toNat / 2 ^ (32 - n) < 2 ^ n := Nat.div_lt_of_lt_mul (hpow ▸ x.isLt)
  rw [rotl, BitVec.toNat_rotateLeft, Nat.mod_eq_of_lt hn, Nat.shiftRight_eq_div_pow, Nat.shiftLeft_eq, hshift,
    Nat.shiftLeft_add_eq_or_of_lt hlow]

/-- Settles O58: the rotation by `toNat_rotl`, the other operators by the library's facts about bit vectors. -/
theorem wordOperatorsAsNumbers : Obligations.WordOperatorsAsNumbers := by
  intro x y n _ hn
  exact ⟨toNat_rotl x hn, BitVec.toNat_add x y, BitVec.toNat_not, fun _ _ =>
    ⟨BitVec.getLsbD_xor, BitVec.getLsbD_and, BitVec.getLsbD_or⟩⟩

/-! ### Big-endian packing -/

theorem toNat_append_byte {k : Nat} (x : BitVec k) (b : Byte) : (x ++ b).toNat = x.toNat * 2 ^ 8 + b.toNat := by
  rw [BitVec.toNat_append, ← Nat.shiftLeft_add_eq_or_of_lt b.isLt, Nat.shiftLeft_eq]

theorem toNat_be32 (b0 b1 b2 b3 : Byte) :
    (be32 b0 b1 b2 b3).toNat = b0.toNat * 2 ^ 24 + b1.toNat * 2 ^ 16 + b2.toNat * 2 ^ 8 + b3.toNat := by
  simp only [be32, toNat_append_byte]
  omega

theorem be32bytes_eq_extracts (x : Word) :
    be32bytes x = [x.extractLsb' 24 8, x.extractLsb' 16 8, x.extractLsb' 8 8, x.extractLsb' 0 8] := rfl

theorem extractLsb'_eq_byte {x : Word} {b : Byte} (start : Nat) (h : x.toNat / 2 ^ start % 2 ^ 8 = b.toNat) :
    x.extractLsb' start 8 = b :=
  BitVec.eq_of_toNat_eq (by rw [BitVec.extractLsb'_toNat, Nat.shiftRight_eq_div_pow, h])

/-- Each byte of the image is a base-256 digit of the Word, whose digits `toNat_be32` names. -/
theorem be32bytes_be32 (b0 b1 b2 b3 : Byte) : be32bytes (be32 b0 b1 b2 b3) = [b0, b1, b2, b3] := by
  have hvalue := toNat_be32 b0 b1 b2 b3
  rw [be32bytes_eq_extracts, extractLsb'_eq_byte (b := b0) 24 (by omega), extractLsb'_eq_byte (b := b1) 16 (by omega),
    extractLsb'_eq_byte (b := b2) 8 (by omega), extractLsb'_eq_byte (b := b3) 0 (by omega)]

theorem toNat_be64byte (l : BitVec 64) (r : Nat) : (be64byte l r).toNat = l.toNat / 2 ^ (56 - 8 * r) % 2 ^ 8 := by
  rw [be64byte, BitVec.extractLsb'_toNat, Nat.shiftRight_eq_div_pow]

theorem length_be64bytes (l : BitVec 64) : (be64bytes l).length = 8 := by
  rw [be64bytes, List.length_map, List.length_range]

/-- The first `k` bytes are the number without its low `64 - 8k` bits: each further byte is the next base-256 digit. -/
theorem foldl_be64byte_range (l : BitVec 64) {k : Nat} (hk : k ≤ 8) :
    ((List.range k).map (be64byte l)).foldl (fun acc b => 256 * acc + b.toNat) 0 = l.toNat / 2 ^ (64 - 8 * k) := by
  induction k with
  | zero => exact (Nat.div_eq_of_lt l.isLt).symm
  | succ k ih =>
    have hexp : 64 - 8 * k = 56 - 8 * k + 8 := by omega
    have hexp' : 64 - 8 * (k + 1) = 56 - 8 * k := by omega
    rw [List.range_succ, List.map_append, List.foldl_append, ih (by omega), hexp, hexp', pow_add, ← Nat.div_div_eq_div_mul,
      List.map_singleton, List.foldl_cons, List.foldl_nil, toNat_be64byte]
    exact Nat.div_add_mod _ 256

theorem foldl_be64bytes (l : BitVec 64) :
    (be64bytes l).foldl (fun acc b => 256 * acc + b.toNat) 0 = l.toNat := by
  rw [be64bytes, foldl_be64byte_range l le_rfl, Nat.sub_self, pow_zero, Nat.div_one]

/-- Settles O59: the Word by appending one byte at a time, the length by its base-256 digits (`foldl_be64byte_range`). -/
theorem bigEndianPacking : Obligations.BigEndianPacking :=
  ⟨fun b0 b1 b2 b3 => ⟨toNat_be32 b0 b1 b2 b3, be32bytes_be32 b0 b1 b2 b3⟩,
    fun l => ⟨length_be64bytes l, foldl_be64bytes l⟩⟩

end Sys2Proof.Machine
end

section
/-! PROOFS. The `STATUS` view of the state and the values after reset and INIT (10_state.md R33, R39). -/

namespace Sys2Proof.Machine

/-! ### The fields of `STATUS` -/

/-- 10_state.md R33 as a number: the three fields are too narrow for the sum to wrap. -/
theorem toNat_status (s : State) :
    (status s).toNat = s.fsm.code.toNat % 4 + 4 * s.cause.code.toNat + 256 * s.bufLen.toNat := by
  simp only [status, BitVec.toNat_add, BitVec.toNat_mul, BitVec.toNat_setWidth, BitVec.extractLsb'_toNat,
    BitVec.ofNat_eq_ofNat, BitVec.toNat_ofNat, Nat.shiftRight_zero]
  omega

/-- A field of `STATUS` is a range of binary digits of the number that `toNat_status` names. -/
theorem toNat_extractLsb'_status (s : State) (start n : Nat) :
    ((status s).extractLsb' start n).toNat =
      (s.fsm.code.toNat % 4 + 4 * s.cause.code.toNat + 256 * s.bufLen.toNat) / 2 ^ start % 2 ^ n := by
  rw [BitVec.extractLsb'_toNat, Nat.shiftRight_eq_div_pow, toNat_status]

/-- Settles O10: by `toNat_extractLsb'_status`; the summands fill bits 1:0, 4:2 and 14:8 and nothing else. -/
theorem statusFieldsReadAsSpecified : Obligations.StatusFieldsReadAsSpecified := by
  intro s
  refine ⟨?fsm, BitVec.eq_of_toNat_eq ?cause, BitVec.eq_of_toNat_eq ?zeros7to5, BitVec.eq_of_toNat_eq ?bufLen,
    BitVec.eq_of_toNat_eq ?zeros31to15⟩ <;> rw [toNat_extractLsb'_status]
  case fsm => omega
  case cause => omega
  case zeros7to5 => show _ = 0; omega
  case bufLen => omega
  case zeros31to15 => show _ = 0; omega

/-! ### The values after reset and after INIT -/

theorem status_reset : status State.reset = 0 := rfl

@[simp] theorem status_respond (err : Bool) (data : Word) (s : State) : status (respond err data s) = status s := rfl

@[simp] theorem status_beginComputation (s : State) : status (beginComputation s) = 1 := rfl

theorem exec_init (s : State) : exec .init s = .next (respond false 0 (beginComputation s)) := rfl

/-- Settles O27: `State.reset` is a fixed state, and INIT writes the control registers whatever the state before. -/
theorem resetAndInitLeaveTheTabledValues : Obligations.ResetAndInitLeaveTheTabledValues :=
  ⟨⟨rfl, rfl, rfl, rfl, rfl, rfl, status_reset⟩, fun s _ =>
    ⟨respond false 0 (beginComputation s), exec_init s, rfl, rfl, rfl, rfl, rfl, rfl, rfl, rfl, rfl, rfl,
      (status_respond ..).trans (status_beginComputation s)⟩⟩

end Sys2Proof.Machine
end

section
/-! PROOFS. The fields of a command word, the decoder by what it accepts, and the encoder and the pseudo-instructions as
words (30_encoding.md R64 to R69, R73). -/

namespace Sys2Proof.Machine

/-! ### The fields of a command word as numbers -/

theorem toNat_opField (cw : CommandWord) : (opField cw).toNat = cw.toNat / 4096 := by
  rw [opField, BitVec.extractLsb'_toNat, Nat.shiftRight_eq_div_pow]
  omega

theorem toNat_rsvField (cw : CommandWord) : (rsvField cw).toNat = cw.toNat / 256 % 16 := by
  rw [rsvField, BitVec.extractLsb'_toNat, Nat.shiftRight_eq_div_pow]

theorem toNat_argField (cw : CommandWord) : (argField cw).toNat = cw.toNat % 256 := by
  rw [argField, BitVec.extractLsb'_toNat, Nat.shiftRight_zero]

/-! ### What the decoder accepts -/

@[simp] theorem decodeNoOperand_eq_ok_iff {i j : Instr} {arg : Byte} :
    decodeNoOperand i arg = .ok j ↔ arg = 0 ∧ i = j := by
  unfold decodeNoOperand
  split
  case isTrue harg => simp only [harg, true_and, Except.ok.injEq]
  case isFalse harg => simp only [harg, false_and, reduceCtorEq]

@[simp] theorem decodeIndexed_eq_ok_iff {i j : Instr} : decodeIndexed i = .ok j ↔ i.wellFormed = true ∧ i = j := by
  unfold decodeIndexed
  split <;> simp [*]

/-- The word carries the command: opcode and operand in their fields, the reserved bits 0. -/
def CarriesCommand (cw : CommandWord) (i : Instr) : Prop :=
  opField cw = i.opcode ∧ rsvField cw = 0 ∧ argField cw = i.operand

theorem carriesCommand_of_decode_eq_ok {cw : CommandWord} {i : Instr} (h : decode cw = .ok i) :
    i.wellFormed = true ∧ CarriesCommand cw i := by
  unfold decode at h
  split at h
  case isTrue => cases h
  case isFalse hop =>
  split at h
  case isTrue => cases h
  case isFalse hrsv =>
  have hrsv : rsvField cw = 0 := not_not.mp hrsv
  split at h
  case h_3 hop => cases h; exact ⟨rfl, BitVec.eq_of_toNat_eq hop, hrsv, rfl⟩
  case h_1 hop | h_2 hop | h_4 hop | h_5 hop =>
    obtain ⟨harg, rfl⟩ := decodeNoOperand_eq_ok_iff.mp h
    exact ⟨rfl, BitVec.eq_of_toNat_eq hop, hrsv, harg⟩
  case h_6 hop | h_7 hop =>
    obtain ⟨hwf, rfl⟩ := decodeIndexed_eq_ok_iff.mp h
    exact ⟨hwf, BitVec.eq_of_toNat_eq hop, hrsv, rfl⟩
  case h_8 _ h0 h1 h2 h3 h4 h5 h6 =>
    rw [imp_false] at h0 h1 h2 h3 h4 h5 h6
    have hop : (opField cw).toNat = 7 := by omega
    obtain ⟨hwf, rfl⟩ := decodeIndexed_eq_ok_iff.mp h
    exact ⟨hwf, BitVec.eq_of_toNat_eq hop, hrsv, rfl⟩

theorem decode_eq_ok_of_carriesCommand {cw : CommandWord} {i : Instr} (hwf : i.wellFormed = true)
    (h : CarriesCommand cw i) : decode cw = .ok i := by
  obtain ⟨hop, hrsv, harg⟩ := h
  cases i <;> simp [decode, hop, hrsv, harg, Instr.opcode, Instr.operand, hwf]

/-- The decoder accepts the words that carry a well-formed command (30_encoding.md R66), and answers that command. -/
theorem decode_eq_ok_iff {cw : CommandWord} {i : Instr} :
    decode cw = .ok i ↔ i.wellFormed = true ∧ CarriesCommand cw i :=
  ⟨carriesCommand_of_decode_eq_ok, fun h => decode_eq_ok_of_carriesCommand h.1 h.2⟩

/-- The arms of `legal` are the rows of 30_encoding.md R66: each names the opcode of one command (four in the first
arm) and its operand constraint. -/
theorem legal_iff_exists_carriesCommand {cw : CommandWord} :
    legal cw = true ↔ ∃ i : Instr, i.wellFormed = true ∧ CarriesCommand cw i := by
  simp only [legal, Bool.and_eq_true, Bool.or_eq_true, beq_iff_eq, decide_eq_true_eq, or_assoc]
  constructor
  · rintro ⟨hrsv, ⟨hop | hop | hop | hop, harg⟩ | hop | ⟨hop, hi⟩ | ⟨hop, hk⟩ | ⟨hop, hj⟩⟩
    · exact ⟨.nop, rfl, hop, hrsv, harg⟩
    · exact ⟨.init, rfl, hop, hrsv, harg⟩
    · exact ⟨.final, rfl, hop, hrsv, harg⟩
    · exact ⟨.rdstat, rfl, hop, hrsv, harg⟩
    · exact ⟨.absorb (argField cw), rfl, hop, hrsv, rfl⟩
    · exact ⟨.rdword (argField cw), decide_eq_true hi, hop, hrsv, rfl⟩
    · exact ⟨.rdbyte (argField cw), decide_eq_true hk, hop, hrsv, rfl⟩
    · exact ⟨.rdhex (argField cw), decide_eq_true hj, hop, hrsv, rfl⟩
  · rintro ⟨i, hwf, hop, hrsv, harg⟩
    rw [hop, hrsv, harg]
    cases i
    case nop | init | absorb | final | rdstat => simp [Instr.opcode, Instr.operand]
    case rdword | rdbyte | rdhex => simpa [Instr.opcode, Instr.operand] using of_decide_eq_true hwf

theorem legal_iff_exists_decode {cw : CommandWord} : legal cw = true ↔ ∃ i, decode cw = .ok i := by
  simp only [legal_iff_exists_carriesCommand, decode_eq_ok_iff]

/-- `legal` with each field as a number. -/
theorem legal_iff_toNat {cw : CommandWord} :
    legal cw = true ↔ cw.toNat / 256 % 16 = 0 ∧
      (((cw.toNat / 4096 = 0 ∨ cw.toNat / 4096 = 1 ∨ cw.toNat / 4096 = 3 ∨ cw.toNat / 4096 = 4) ∧ cw.toNat % 256 = 0) ∨
        cw.toNat / 4096 = 2 ∨ (cw.toNat / 4096 = 5 ∧ cw.toNat % 256 ≤ 4) ∨ (cw.toNat / 4096 = 6 ∧ cw.toNat % 256 ≤ 19) ∨
        (cw.toNat / 4096 = 7 ∧ cw.toNat % 256 ≤ 39)) := by
  simp [legal, ← BitVec.toNat_inj, toNat_opField, toNat_rsvField, toNat_argField, or_assoc]

/-- Settles O1: the accepted words are the legal ones (`legal_iff_exists_decode`), whose predicate `legal_iff_toNat`
gives over numbers; the command answered is the one the word carries. -/
theorem decoderAcceptsExactlyLegalWords : Obligations.DecoderAcceptsExactlyLegalWords := by
  intro cw
  refine ⟨legal_iff_exists_decode.symm.trans legal_iff_toNat, legal_iff_exists_decode, fun i h => ?_⟩
  obtain ⟨-, hop, -, harg⟩ := decode_eq_ok_iff.mp h
  exact ⟨hop ▸ toNat_opField cw, harg ▸ toNat_argField cw⟩

/-! ### The encoder and the pseudo-instructions as words -/

theorem toNat_encode (i : Instr) : (encode i).toNat = 4096 * i.opcode.toNat + i.operand.toNat := by
  rw [encode, toNat_append_byte, BitVec.toNat_append, BitVec.ofNat_eq_ofNat, BitVec.toNat_zero,
    Nat.or_zero, Nat.shiftLeft_eq]
  omega

theorem encode_eq_ofNat (i : Instr) : encode i = BitVec.ofNat 16 (4096 * i.opcode.toNat + i.operand.toNat) := by
  rw [← toNat_encode, BitVec.ofNat_toNat, BitVec.setWidth_eq]

theorem encode_absorb (b : Byte) : encode (.absorb b) = BitVec.ofNat 16 (0x2000 + b.toNat) := encode_eq_ofNat _

theorem map_encode_absorbAll (m : List Byte) :
    (absorbAll m).map encode = m.map fun b => BitVec.ofNat 16 (0x2000 + b.toNat) := by
  rw [absorbAll, List.map_map]
  exact List.map_congr_left fun b _ => encode_absorb b

theorem map_encode_messageCommands (m : List Byte) :
    (messageCommands m).map encode = 0x1000 :: ((m.map fun b => BitVec.ofNat 16 (0x2000 + b.toNat)) ++ [0x3000]) := by
  rw [messageCommands, List.map_cons, List.map_append, map_encode_absorbAll]
  rfl

/-- The reads of the first `n` indices of a view encode to `n` consecutive words: an index below 256 is its own operand. -/
theorem map_encode_range {read : Byte → Instr} {base n : Nat}
    (hread : ∀ x, encode (read x) = BitVec.ofNat 16 (base + x.toNat)) (hn : n ≤ 256) :
    ((List.range n).map fun i => read (BitVec.ofNat 8 i)).map encode =
      (List.range n).map fun i => BitVec.ofNat 16 (base + i) := by
  rw [List.map_map]
  refine List.map_congr_left fun i hi => ?_
  have hi : i < 256 := (List.mem_range.mp hi).trans_le hn
  rw [Function.comp_apply, hread, BitVec.toNat_ofNat, Nat.mod_eq_of_lt hi]

theorem assembleProgram_singleton (p : Pseudo) : assembleProgram [p] = p.expand.map encode := by
  rw [assembleProgram, List.flatMap_singleton]

/-- Settles O6: by the words of a list of ABSORBs (`map_encode_absorbAll`) and of a run of reads (`map_encode_range`). -/
theorem pseudoInstructionsExpandToListedWords : Obligations.PseudoInstructionsExpandToListedWords := by
  intro text bytes
  simp only [assembleProgram_singleton]
  exact ⟨map_encode_messageCommands _, map_encode_absorbAll _, map_encode_absorbAll _,
    map_encode_range (fun _ => encode_eq_ofNat _) (by decide), map_encode_range (fun _ => encode_eq_ofNat _) (by decide),
    map_encode_range (fun _ => encode_eq_ofNat _) (by decide)⟩

end Sys2Proof.Machine
end

section
/-! PROOFS. The Bit Encoder: where each bit of a byte stands in the Bitstream (40_bit_encoder.md R76, R77). -/

namespace Sys2Proof.Machine

/-! ### The bits of one byte -/

@[simp] theorem length_byteBits (b : Byte) : (byteBits b).length = 8 := by
  rw [byteBits, List.length_map, List.length_range]

theorem getElem?_byteBits (b : Byte) {i : Nat} (hi : i < 8) : (byteBits b)[i]? = some (b.getLsbD (7 - i)) := by
  rw [byteBits, List.getElem?_map, List.getElem?_range hi, Option.map_some]

/-! ### The Bitstream of a Message -/

@[simp] theorem bitEncode_nil : bitEncode [] = [] := rfl

@[simp] theorem bitEncode_cons (b : Byte) (m : List Byte) : bitEncode (b :: m) = byteBits b ++ bitEncode m := rfl

@[simp] theorem length_bitEncode (m : List Byte) : (bitEncode m).length = 8 * m.length := by
  induction m with
  | nil => rfl
  | cons b m ih =>
    rw [bitEncode_cons, List.length_append, length_byteBits, ih, List.length_cons]
    omega

/-- The first byte fills the positions 0 to 7; behind it stands the Bitstream of the rest, moved up by 8. -/
theorem getElem?_bitEncode (m : List Byte) {j i : Nat} (hj : j < m.length) (hi : i < 8) :
    (bitEncode m)[8 * j + i]? = some (m[j].getLsbD (7 - i)) := by
  induction m generalizing j with
  | nil => exact absurd hj (Nat.not_lt_zero j)
  | cons b m ih =>
    rw [bitEncode_cons]
    cases j with
    | zero =>
      have hfirst : 8 * 0 + i < (byteBits b).length := by rw [length_byteBits]; omega
      rw [List.getElem?_append_left hfirst, Nat.mul_zero, Nat.zero_add, getElem?_byteBits b hi, List.getElem_cons_zero]
    | succ j =>
      have hrest : (byteBits b).length ≤ 8 * (j + 1) + i := by rw [length_byteBits]; omega
      have hshift : 8 * (j + 1) + i - (byteBits b).length = 8 * j + i := by rw [length_byteBits]; omega
      rw [List.getElem?_append_right hrest, hshift, ih (Nat.lt_of_succ_lt_succ hj), List.getElem_cons_succ]

/-- Settles O49: the length by `length_bitEncode`, each bit's position by `getElem?_bitEncode`. -/
theorem bitEncoderKeepsBitOrder : Obligations.BitEncoderKeepsBitOrder :=
  fun m => ⟨length_bitEncode m, fun _ _ hj hi => getElem?_bitEncode m hj (Nat.lt_succ_of_le hi)⟩

end Sys2Proof.Machine
end

section
/-! PROOFS. The Padder: the number of zero bits, the length field and the padded Bitstream (41_padder.md R83, R84). -/

namespace Sys2Proof.Machine

/-! ### The number of zero bits -/

theorem natCast_padZeros (bitLength : Nat) : (padZeros bitLength : Int) = (447 - (bitLength : Int)) % 512 :=
  Int.toNat_of_nonneg (Int.emod_nonneg _ (by decide))

theorem padZeros_lt (bitLength : Nat) : padZeros bitLength < 512 := by
  have hk := natCast_padZeros bitLength
  omega

theorem padZeros_fills_blocks (bitLength : Nat) : (bitLength + 1 + padZeros bitLength + 64) % 512 = 0 := by
  have hk := natCast_padZeros bitLength
  omega

/-- Two counts that fill the Blocks agree modulo 512, and `padZeros` is the one below 512. -/
theorem padZeros_le_of_fills_blocks {bitLength k : Nat} (h : (bitLength + 1 + k + 64) % 512 = 0) :
    padZeros bitLength ≤ k := by
  have hfills := padZeros_fills_blocks bitLength
  have hlt := padZeros_lt bitLength
  omega

/-! ### The length field -/

@[simp] theorem bitsValue_append_singleton (bits : List Bool) (b : Bool) :
    bitsValue (bits ++ [b]) = 2 * bitsValue bits + b.toNat := by
  rw [bitsValue, List.foldl_append]
  rfl

/-- The last of the `w` bits is the parity of `n`; those before it are the low bits of `n / 2`. -/
theorem bitsValue_map_testBit (n w : Nat) :
    bitsValue ((List.range w).map fun i => n.testBit (w - 1 - i)) = n % 2 ^ w := by
  induction w generalizing n with
  | zero => exact (Nat.mod_one n).symm
  | succ w ih =>
    have hhigh : ((List.range w).map fun i => n.testBit (w + 1 - 1 - i)) =
        (List.range w).map fun i => (n / 2).testBit (w - 1 - i) := by
      refine List.map_congr_left fun i hi => ?_
      have hi : i < w := List.mem_range.mp hi
      have hexp : w + 1 - 1 - i = w - 1 - i + 1 := by omega
      rw [hexp, Nat.testBit_succ]
    have hparity : (n.testBit 0).toNat = n % 2 := by rw [Nat.toNat_testBit, pow_zero, Nat.div_one]
    rw [List.range_succ, List.map_append, List.map_singleton, bitsValue_append_singleton, hhigh, ih,
      Nat.add_sub_cancel, Nat.sub_self, hparity, Nat.pow_succ', Nat.mod_mul, add_comm]

@[simp] theorem length_len64 (bitLength : Nat) : (len64 bitLength).length = 64 := by
  rw [len64, List.length_map, List.length_range]

theorem bitsValue_len64 {bitLength : Nat} (h : bitLength < 2 ^ 64) : bitsValue (len64 bitLength) = bitLength :=
  (bitsValue_map_testBit bitLength 64).trans (Nat.mod_eq_of_lt h)

/-! ### The padded Bitstream -/

theorem padBits_of_length_lt {s : List Bool} (h : s.length < 2 ^ 64) :
    padBits s = .ok (s ++ [true] ++ List.replicate (padZeros s.length) false ++ len64 s.length) := if_pos h

theorem padBits_of_le_length {s : List Bool} (h : 2 ^ 64 ≤ s.length) : padBits s = .error .inputTooLarge :=
  if_neg (Nat.not_lt.mpr h)

/-- Settles O50: the zeros by what `padZeros` is modulo 512 and its bound, the length field by `bitsValue_len64`. -/
theorem padAppendsOneZerosAndLength : Obligations.PadAppendsOneZerosAndLength :=
  fun s => ⟨padBits_of_le_length, fun h =>
    ⟨padZeros s.length, len64 s.length, padBits_of_length_lt h, natCast_padZeros _, padZeros_fills_blocks _,
      fun _ => padZeros_le_of_fills_blocks, length_len64 _, bitsValue_len64 h⟩⟩

end Sys2Proof.Machine
end

section
/-! PROOFS. The LOAD step: the Block in `BUF` as sixteen big-endian Words (42_block_splitter.md R100). -/

namespace Sys2Proof.Machine

theorem toNat_readWord (m : Memory) (j : Nat) :
    (m.readWord j).toNat = (m.read j).toNat * 2 ^ 24 + (m.read (j + 1)).toNat * 2 ^ 16 +
      (m.read (j + 2)).toNat * 2 ^ 8 + (m.read (j + 3)).toNat :=
  toNat_be32 ..

theorem getElem_loadSchedule (m : Memory) (w : Vector Word 80) {i : Nat} (hi : i < 80) :
    (loadSchedule m w)[i] = if i < 16 then m.readWord (4 * i) else w[i] := by
  rw [← scheduleAt_eq hi, ← scheduleAt_eq hi, scheduleAt_load m w i hi]

/-- Settles O28: the step is one of its two effects, `raiseFault` or `loaded`; each Word of `W` after the latter is
`getElem_loadSchedule`, as a number `toNat_readWord`. -/
theorem loadSplitsTheBlock : Obligations.LoadSplitsTheBlock := by
  intro s hload
  refine ⟨fun hlen => ?fault, fun hlen => ⟨loaded s, ?step, rfl, fun i hi => ?words⟩⟩
  case fault => exact internalStep_loadFault hload fun h => hlen (congrArg BitVec.toNat h)
  case step => exact internalStep_load hload (BitVec.eq_of_toNat_eq hlen)
  case words =>
    simp only [loaded_w]
    rw [getElem_loadSchedule s.buf s.w hi, apply_ite BitVec.toNat, toNat_readWord]

end Sys2Proof.Machine
end

section
/-! PROOFS. The EXPAND step and the recurrence of the Schedule (43_message_scheduler.md R103, R104, R106). -/

namespace Sys2Proof.Machine

/-! ### The EXPAND step -/

theorem nextScheduleWord_eq (w : Vector Word 80) {n : Nat} (hn : n < 80) :
    nextScheduleWord w n = (w[n - 3] ^^^ w[n - 8] ^^^ w[n - 14] ^^^ w[n - 16]).rotateLeft 1 := by
  rw [nextScheduleWord, rotl, scheduleAt_eq, scheduleAt_eq, scheduleAt_eq, scheduleAt_eq]

theorem getElem_expanded_w (s : State) {i : Nat} (hi : i < 80) :
    (expanded s).w[i] = if i = s.t.toNat then nextScheduleWord s.w s.t.toNat else s.w[i] := by
  simp only [expanded_w, Vector.getElem_setIfInBounds hi, eq_comm (a := i)]

/-- `T` has 7 bits, so it counts up without wrapping as long as it is an index of `W`. -/
theorem toNat_expanded_t {s : State} (ht : s.t.toNat ≤ 79) :
    (expanded s).t.toNat = if s.t.toNat = 79 then 0 else s.t.toNat + 1 := by
  rw [expanded_t]
  split
  case isTrue => rfl
  case isFalse => rw [BitVec.toNat_add_of_lt (by show s.t.toNat + 1 < 128; omega)]; rfl

/-- Settles O29: the step is `expanded`; its Word is `nextScheduleWord_eq`, its index `toNat_expanded_t`. -/
theorem expandWritesOneScheduleWord : Obligations.ExpandWritesOneScheduleWord := by
  rintro s n hlow hhigh hexpand rfl
  refine ⟨expanded s, internalStep_expand hexpand hlow hhigh, rfl, fun i hi => ?words, toNat_expanded_t hhigh, ?fsm⟩
  case words => rw [getElem_expanded_w s hi, nextScheduleWord_eq s.w (Nat.lt_succ_of_le hhigh)]
  case fsm => rw [expanded_fsm, hexpand]

/-! ### The pure Schedule -/

theorem getElem?_expandBlock {m : List Word} (hm : m.length = 16) {i : Nat} (hi : i < 80) :
    (expandBlock m)[i]? = some ((expandBlock m).getD i 0) := by
  have hlen : i < (expandBlock m).length := (expandBlock_length hm).symm ▸ hi
  rw [List.getElem?_eq_getElem hlen, List.getD_eq_getElem _ _ hlen]

theorem getElem?_expandBlock_old {m : List Word} (hm : m.length = 16) {i : Nat} (hi : i < 16) :
    (expandBlock m)[i]? = m[i]? := by
  have hlen : i < m.length := hm.symm ▸ hi
  rw [getElem?_expandBlock hm (by omega), expandBlock, extendSchedule_getD_old 64 m i hlen, List.getD_eq_getElem _ _ hlen,
    List.getElem?_eq_getElem hlen]

/-- Settles O53: the Words of the Block stay (`extendSchedule_getD_old`), the further ones follow the recurrence
(`extendSchedule_getD_new`). -/
theorem expandFollowsTheRecurrence : Obligations.ExpandFollowsTheRecurrence := by
  intro m hm
  refine ⟨expandBlock_length hm, fun i hi => getElem?_expandBlock_old hm hi, fun i hlow hhigh => ?_⟩
  rw [getElem?_expandBlock hm hhigh]
  exact congrArg some (extendSchedule_getD_new 64 m i (by omega) (by omega) (by omega))

end Sys2Proof.Machine
end

section
/-! PROOFS. The Compressor: the constants and functions of a round, `compress`, and the ROUND and FOLD steps
(44_compressor.md R112 to R115, R118 to R120). -/

namespace Sys2Proof.Machine

/-! ### The round constants -/

/-- Settles O31: the bounds of each group decide the branches of `roundConstant`. -/
theorem roundConstantsByGroup : Obligations.RoundConstantsByGroup := by
  intro t _
  refine ⟨fun h19 => if_pos h19, fun h20 h39 => ?second, fun h40 h59 => ?third, fun h60 => ?fourth⟩
  case second => rw [roundConstant, if_neg (by omega), if_pos h39]
  case third => rw [roundConstant, if_neg (by omega), if_neg (by omega), if_pos h59]
  case fourth => rw [roundConstant, if_neg (by omega), if_neg (by omega), if_neg (by omega)]

/-! ### The round functions -/

/-- Where `x` is 1 the second summand of Ch is 0, and where `x` is 0 the first. -/
theorem getLsbD_ch (x y z : Word) {i : Nat} (hi : i < 32) :
    ((x &&& y) ||| (~~~x &&& z)).getLsbD i = if x.getLsbD i then y.getLsbD i else z.getLsbD i := by
  rw [BitVec.getLsbD_or, BitVec.getLsbD_and, BitVec.getLsbD_and, BitVec.getLsbD_not, decide_eq_true hi, Bool.true_and]
  cases x.getLsbD i
  case false => rfl
  case true => exact Bool.or_false _

theorem xor_eq_decide_odd :
    ∀ p q r : Bool, (p ^^ q ^^ r) = decide ((p.toNat + q.toNat + r.toNat) % 2 = 1) := by decide

theorem getLsbD_parity (x y z : Word) (i : Nat) :
    (x ^^^ y ^^^ z).getLsbD i =
      decide (((x.getLsbD i).toNat + (y.getLsbD i).toNat + (z.getLsbD i).toNat) % 2 = 1) := by
  rw [BitVec.getLsbD_xor, BitVec.getLsbD_xor, ← xor_eq_decide_odd, Bool.xor_assoc]

theorem majority_eq_decide_two_le :
    ∀ p q r : Bool, (p && q || p && r || q && r) = decide (2 ≤ p.toNat + q.toNat + r.toNat) := by decide

theorem getLsbD_maj (x y z : Word) (i : Nat) :
    ((x &&& y) ||| (x &&& z) ||| (y &&& z)).getLsbD i =
      decide (2 ≤ (x.getLsbD i).toNat + (y.getLsbD i).toNat + (z.getLsbD i).toNat) := by
  rw [BitVec.getLsbD_or, BitVec.getLsbD_or, BitVec.getLsbD_and, BitVec.getLsbD_and, BitVec.getLsbD_and,
    majority_eq_decide_two_le]

/-- Settles O32: group by group, by the bits of Ch (`getLsbD_ch`), Parity (`getLsbD_parity`) and Maj (`getLsbD_maj`). -/
theorem roundFunctionsFollowTheTruthTable : Obligations.RoundFunctionsFollowTheTruthTable := by
  intro t x y z i _ hi
  by_cases h19 : t ≤ 19
  · rw [roundFunction, if_pos h19, if_pos h19, getLsbD_ch x y z hi]
  by_cases h39 : t ≤ 39
  · have hmaj : ¬(40 ≤ t ∧ t ≤ 59) := by omega
    rw [roundFunction, if_neg h19, if_pos h39, if_neg h19, if_neg hmaj, getLsbD_parity]
  by_cases h59 : t ≤ 59
  · have hmaj : 40 ≤ t ∧ t ≤ 59 := by omega
    rw [roundFunction, if_neg h19, if_neg h39, if_pos h59, if_neg h19, if_pos hmaj, getLsbD_maj]
  · have hmaj : ¬(40 ≤ t ∧ t ≤ 59) := by omega
    rw [roundFunction, if_neg h19, if_neg h39, if_neg h59, if_neg h19, if_neg hmaj, getLsbD_parity]

/-! ### `compress` -/

theorem compressRound_eq (t : Nat) (r : Working) (x : Word) :
    compressRound t r x =
      ⟨r.a.rotateLeft 5 + roundFunction t r.b r.c r.d + r.e + roundConstant t + x, r.a, r.b.rotateLeft 30, r.c, r.d⟩ :=
  rfl

/-- Settles O54: the sequence is `runRounds` by its number of rounds, which starts at the State and grows by one round
(`runRounds_succ`). -/
theorem compressAddsEightyRounds : Obligations.CompressAddsEightyRounds := by
  intro h s _
  refine ⟨runRounds (workingOf h) s, rfl, fun t _ => ?round, rfl⟩
  case round => rw [runRounds_succ, compressRound_eq]

/-! ### The ROUND step -/

/-- The five summands reduce modulo 2^32 once, at the end. -/
theorem toNat_compressRound_a (t : Nat) (r : Working) (x : Word) :
    (compressRound t r x).a.toNat =
      ((r.a.rotateLeft 5).toNat + (roundFunction t r.b r.c r.d).toNat + r.e.toNat + (roundConstant t).toNat + x.toNat) %
        2 ^ 32 := by
  simp only [compressRound_eq, BitVec.toNat_add, Nat.mod_add_mod]

/-- ROUND counts `T` as EXPAND does. -/
theorem toNat_rounded_t {s : State} (ht : s.t.toNat ≤ 79) :
    (rounded s).t.toNat = if s.t.toNat = 79 then 0 else s.t.toNat + 1 :=
  toNat_expanded_t ht

/-- Settles O30: the step is `rounded`; its sum is `toNat_compressRound_a`, its index `toNat_rounded_t`. -/
theorem roundUpdatesTheWorkingRegisters : Obligations.RoundUpdatesTheWorkingRegisters := by
  rintro s n hn hround rfl
  refine ⟨rounded s, internalStep_round hround hn, rfl, ?sum, rfl, rfl, rfl, rfl, toNat_rounded_t hn, ?fsm⟩
  case sum => rw [rounded_work, toNat_compressRound_a, scheduleAt_eq (Nat.lt_succ_of_le hn)]
  case fsm => rw [rounded_fsm, hround]

/-! ### The FOLD step -/

theorem folded_frame (s : State) :
    folded s = { s with
      h := (folded s).h, buf := (folded s).buf, bufLen := (folded s).bufLen, fin := (folded s).fin,
      fsm := (folded s).fsm } := by
  unfold folded foldContinue
  split <;> rfl

theorem toNat_addWorking (h : Vector Word 5) (r : Working) :
    (addWorking h r)[0].toNat = (h[0].toNat + r.a.toNat) % 2 ^ 32 ∧
    (addWorking h r)[1].toNat = (h[1].toNat + r.b.toNat) % 2 ^ 32 ∧
    (addWorking h r)[2].toNat = (h[2].toNat + r.c.toNat) % 2 ^ 32 ∧
    (addWorking h r)[3].toNat = (h[3].toNat + r.d.toNat) % 2 ^ 32 ∧
    (addWorking h r)[4].toNat = (h[4].toNat + r.e.toNat) % 2 ^ 32 :=
  ⟨BitVec.toNat_add .., BitVec.toNat_add .., BitVec.toNat_add .., BitVec.toNat_add .., BitVec.toNat_add ..⟩

theorem be64byte_eq_ofNat (l : BitVec 64) (r : Nat) :
    be64byte l r = BitVec.ofNat 8 (l.toNat / 2 ^ (56 - 8 * r)) :=
  BitVec.eq_of_toNat_eq (by rw [toNat_be64byte, BitVec.toNat_ofNat])

/-- The extra Block with the length suffix as base-256 digits: byte `b` stands `63 - b` digits above the lowest. -/
theorem extraBlock_read_eq_digit (m : Memory) (len : BitVec 64) (b : Nat) :
    (extraBlock m len).read b =
      if b < 56 then 0x00 else if b < 64 then BitVec.ofNat 8 (len.toNat / 2 ^ (8 * (63 - b))) else m.read b := by
  rw [extraBlock_read, be64byte_eq_ofNat]
  by_cases hzeros : b < 56
  · rw [if_neg (by omega), if_pos hzeros, if_pos hzeros]
  · have hexp : 56 - 8 * (b - 56) = 8 * (63 - b) := by omega
    simp only [hzeros, if_false, Nat.le_of_not_lt hzeros, true_and, hexp]

/-- Settles O33: the step is `folded`; its sums are `toNat_addWorking`, the rest is what `folded` does at each stage
`FIN`, the Block of the EXTRA stage `extraBlock_read_eq_digit`. -/
theorem foldAddsIntoStateAndContinues : Obligations.FoldAddsIntoStateAndContinues := by
  intro s hfold
  obtain ⟨h0, h1, h2, h3, h4⟩ := folded_h s ▸ toNat_addWorking s.h s.work
  refine ⟨folded s, internalStep_fold hfold, folded_frame s, h0, h1, h2, h3, h4, fun hnone => ?none, fun hlast => ?last,
    fun hextra => ⟨folded_extra_fsm hextra, folded_extra_fin hextra, folded_extra_bufLen hextra, fun j => ?block⟩⟩
  case none =>
    exact ⟨folded_none_fsm hnone, folded_none_fin hnone, folded_none_bufLen hnone, folded_none_buf hnone⟩
  case last =>
    exact ⟨folded_last_fsm hlast, folded_last_fin hlast, folded_last_bufLen hlast, folded_last_buf hlast⟩
  case block => rw [folded_extra_buf hextra, extraBlock_read_eq_digit]

end Sys2Proof.Machine
end

section
/-! PROOFS. The Digest Assembler: the 160 bits as a number, and the bytes and hexadecimal characters of the views as numbers
(45_digest_assembler.md R122, R123). -/

namespace Sys2Proof.Machine

/-! ### The assembled Digest -/

theorem digestWord_eq (h : Vector Word 5) {i : Nat} (hi : i < 5) : digestWord h i = h[i] := by
  rw [digestWord, Vector.getElem?_eq_getElem hi, Option.getD_some]

theorem toNat_append_eq_add {m n : Nat} (x : BitVec m) (y : BitVec n) :
    (x ++ y).toNat = x.toNat * 2 ^ n + y.toNat := by
  rw [BitVec.toNat_append, ← Nat.shiftLeft_add_eq_or_of_lt y.isLt, Nat.shiftLeft_eq]

theorem toNat_assembleDigest (h : Vector Word 5) :
    (assembleDigest h).toNat =
      h[0].toNat * 2 ^ 128 + h[1].toNat * 2 ^ 96 + h[2].toNat * 2 ^ 64 + h[3].toNat * 2 ^ 32 + h[4].toNat := by
  simp only [assembleDigest, toNat_append_eq_add]
  omega

/-- Register `i` stands `4 - i` Words above the lowest one of the Digest. -/
theorem extractLsb'_assembleDigest (h : Vector Word 5) {i : Nat} (hi : i < 5) :
    (assembleDigest h).extractLsb' (128 - 32 * i) 32 = h[i] := by
  refine BitVec.eq_of_toNat_eq ?_
  rw [BitVec.extractLsb'_toNat, Nat.shiftRight_eq_div_pow, toNat_assembleDigest]
  interval_cases i <;> omega

theorem extractLsb'_extractLsb'_add {w : Nat} (x : BitVec w) {start len offset n : Nat} (h : offset + n ≤ len) :
    (x.extractLsb' start len).extractLsb' offset n = x.extractLsb' (start + offset) n := by
  refine BitVec.eq_of_getLsbD_eq fun i hi => ?_
  have hin : offset + i < len := by omega
  simp only [BitVec.getLsbD_extractLsb', hin, decide_true, Bool.true_and, Nat.add_assoc]

/-- Byte `k` of the view lies inside register `k / 4`, so it is byte `k` from the top of the Digest. -/
theorem digestByte_eq_extractLsb' (h : Vector Word 5) {k : Nat} (hk : k < 20) :
    digestByte h k = (assembleDigest h).extractLsb' (152 - 8 * k) 8 := by
  have hreg : k / 4 < 5 := by omega
  have hpos : 128 - 32 * (k / 4) + (24 - 8 * (k % 4)) = 152 - 8 * k := by omega
  rw [digestByte, digestWord_eq h hreg, ← extractLsb'_assembleDigest h hreg,
    extractLsb'_extractLsb'_add _ (by omega), hpos]

/-- Settles O55: the sum by appending one register at a time (`toNat_assembleDigest`), each byte by its place in the
160 bits (`digestByte_eq_extractLsb'`). -/
theorem assembleConcatenatesTheRegisters : Obligations.AssembleConcatenatesTheRegisters := by
  intro h
  refine ⟨toNat_assembleDigest h, fun k hk => ?byte⟩
  case byte =>
    rw [digestByte_eq_extractLsb' h (Nat.lt_succ_of_le hk), BitVec.extractLsb'_toNat, Nat.shiftRight_eq_div_pow]

/-! ### The views as numbers -/

theorem toNat_digestByte (h : Vector Word 5) {k : Nat} (hk : k / 4 < 5) :
    (digestByte h k).toNat = h[k / 4].toNat / 2 ^ (24 - 8 * (k % 4)) % 256 := by
  rw [digestByte, digestWord_eq h hk, BitVec.extractLsb'_toNat, Nat.shiftRight_eq_div_pow]

theorem zeroExtend_digestByte (h : Vector Word 5) {k : Nat} (hk : k / 4 < 5) :
    (digestByte h k).zeroExtend 32 = BitVec.ofNat 32 (h[k / 4].toNat / 2 ^ (24 - 8 * (k % 4)) % 256) := by
  rw [← toNat_digestByte h hk, BitVec.ofNat_toNat]

theorem toNat_digestNibble (h : Vector Word 5) {j : Nat} (hj : j / 8 < 5) :
    (digestNibble h j).toNat = h[j / 8].toNat / 2 ^ (28 - 4 * (j % 8)) % 16 := by
  rw [digestNibble, digestWord_eq h hj, BitVec.extractLsb'_toNat, Nat.shiftRight_eq_div_pow]

theorem toNat_hexCode :
    ∀ v : BitVec 4, (hexCode v).toNat = if v.toNat ≤ 9 then 0x30 + v.toNat else 0x57 + v.toNat := by decide

theorem zeroExtend_digestHex (h : Vector Word 5) {j : Nat} (hj : j / 8 < 5) :
    (digestHex h j).zeroExtend 32 =
      let v := h[j / 8].toNat / 2 ^ (28 - 4 * (j % 8)) % 16
      BitVec.ofNat 32 (if v ≤ 9 then 0x30 + v else 0x57 + v) :=
  (BitVec.ofNat_toNat 32 _).symm.trans (by rw [digestHex, toNat_hexCode, toNat_digestNibble h hj])

end Sys2Proof.Machine
end

section
/-! PROOFS. Accepting a word that is not legal, and the digest reads RDWORD, RDBYTE and RDHEX in each phase
(45_digest_assembler.md R124 to R126; 60_exceptions.md R143, R148). -/

namespace Sys2Proof.Machine

/-! ### Words that are not legal -/

/-- The word of a command is legal when its operand meets the constraint of its row (30_encoding.md R66, R68). -/
theorem legal_encode (i : Instr) : legal (encode i) = i.wellFormed := by
  obtain ⟨hop, hrsv, harg⟩ := Laws.EncodeFields.fields_of_append i.opcode i.operand
  rw [legal, encode, hop, hrsv, harg]
  cases i
  case nop | init | absorb | final | rdstat | rdhex => rfl
  case rdword => exact (Bool.or_false _).trans (Bool.or_false _)
  case rdbyte => exact Bool.or_false _

theorem acceptWord_of_not_legal {cw : CommandWord} (h : legal cw = false) (s : State) :
    acceptWord cw s = .next (refuseIllegal s) := by
  cases hdecode : decode cw with
  | ok i => exact absurd (legal_iff_exists_decode.mpr ⟨i, hdecode⟩) (Bool.eq_false_iff.mp h)
  | error e => rw [acceptWord, hdecode]

theorem refuseIllegal_of_ne_fault {s : State} (h : s.fsm ≠ .fault) :
    refuseIllegal s = raiseFault true .illegalCommand s := if_neg h

theorem acceptWord_encode_of_not_wellFormed {i : Instr} {s : State} (hwf : i.wellFormed = false) (h : s.fsm ≠ .fault) :
    acceptWord (encode i) s = .next (raiseFault true .illegalCommand s) := by
  rw [acceptWord_of_not_legal ((legal_encode i).trans hwf), refuseIllegal_of_ne_fault h]

/-! ### The phases of a digest read -/

/-- The command is a read of the digest view `data`, served in phase DONE alone. -/
def ReadsDigest (read : Instr) (data : Vector Word 5 → Word) : Prop :=
  ∀ s : State, exec read s = serveInPhase .done read.wellFormed s (.next (respond false (data s.h) s))

theorem readsDigest_rdword (i : Byte) : ReadsDigest (.rdword i) fun h => digestWord h i.toNat := fun _ => rfl

theorem readsDigest_rdbyte (k : Byte) : ReadsDigest (.rdbyte k) fun h => (digestByte h k.toNat).zeroExtend 32 :=
  fun _ => rfl

theorem readsDigest_rdhex (j : Byte) : ReadsDigest (.rdhex j) fun h => (digestHex h j.toNat).zeroExtend 32 :=
  fun _ => rfl

theorem ReadsDigest.exec_fault {read : Instr} {data : Vector Word 5 → Word} {s : State} (hread : ReadsDigest read data)
    (h : s.fsm = .fault) : exec read s = .next (answerRetained s) := by
  rw [hread s, serveInPhase_fault h]

theorem ReadsDigest.exec_outOfPhase {read : Instr} {data : Vector Word 5 → Word} {s : State}
    (hread : ReadsDigest read data) (hwf : read.wellFormed = true) (h : s.fsm = .idle ∨ s.fsm = .absorb) :
    exec read s = .next (raiseFault true .sequenceError s) := by
  have hfault : s.fsm ≠ .fault := by rcases h with h | h <;> simp [h]
  have hdone : s.fsm ≠ .done := by rcases h with h | h <;> simp [h]
  rw [hread s, hwf, serveInPhase_outOfPhase hfault hdone]

theorem ReadsDigest.exec_done {read : Instr} {data : Vector Word 5 → Word} {s : State} (hread : ReadsDigest read data)
    (hwf : read.wellFormed = true) (h : s.fsm = .done) : exec read s = .next (respond false (data s.h) s) := by
  rw [hread s, hwf, serveInPhase_served h (by decide)]

/-! ### The three digest reads -/

/-- Settles O14: each phase as for any digest read, an index outside the view by
`acceptWord_encode_of_not_wellFormed`; the Word answered is `digestWord_eq`. -/
theorem rdwordReadsOneStateWord : Obligations.RdwordReadsOneStateWord := by
  intro i s
  have hread := readsDigest_rdword i
  refine ⟨fun hfault _ => hread.exec_fault hfault, fun _ hfault hi => ?illegal,
    fun hphase hi => hread.exec_outOfPhase (decide_eq_true hi) hphase, fun hdone hi => ?served⟩
  case illegal => exact acceptWord_encode_of_not_wellFormed (decide_eq_false (Nat.not_le_of_lt hi)) hfault
  case served => rw [hread.exec_done (decide_eq_true (Nat.le_of_lt_succ hi)) hdone, digestWord_eq s.h hi, respond]

/-- Settles O15: the phases and the index outside the view as for RDWORD; the byte answered is
`zeroExtend_digestByte`. -/
theorem rdbyteReadsOneDigestByte : Obligations.RdbyteReadsOneDigestByte := by
  intro k s
  have hread := readsDigest_rdbyte k
  refine ⟨fun hfault _ => hread.exec_fault hfault, fun _ hfault hk => ?illegal,
    fun hphase hk => hread.exec_outOfPhase (decide_eq_true hk) hphase, fun hdone hk => ?served⟩
  case illegal => exact acceptWord_encode_of_not_wellFormed (decide_eq_false (Nat.not_le_of_lt hk)) hfault
  case served =>
    have hview : k.toNat ≤ 19 := by omega
    rw [hread.exec_done (decide_eq_true hview) hdone, zeroExtend_digestByte s.h hk, respond]

/-- Settles O16: the phases and the index outside the view as for RDWORD; the character code answered is
`zeroExtend_digestHex`. -/
theorem rdhexReadsOneHexCharacter : Obligations.RdhexReadsOneHexCharacter := by
  intro j s
  have hread := readsDigest_rdhex j
  refine ⟨fun hfault _ => hread.exec_fault hfault, fun _ hfault hj => ?illegal,
    fun hphase hj => hread.exec_outOfPhase (decide_eq_true hj) hphase, fun hdone hj => ?served⟩
  case illegal => exact acceptWord_encode_of_not_wellFormed (decide_eq_false (Nat.not_le_of_lt hj)) hfault
  case served =>
    have hview : j.toNat ≤ 39 := by omega
    rw [hread.exec_done (decide_eq_true hview) hdone, zeroExtend_digestHex s.h hj, respond]

end Sys2Proof.Machine
end

section
/-! PROOFS. The control commands NOP, INIT and RDSTAT, and the domain of the whole-message function `hash`
(46_control_and_pipeline.md R129 to R131, R133). -/

namespace Sys2Proof.Machine

/-! ### The Blocks of a padded Bitstream -/

theorem length_of_padBits_eq_ok {s p : List Bool} (h : padBits s = .ok p) :
    p.length = s.length + 1 + padZeros s.length + 64 := by
  rcases Nat.lt_or_ge s.length (2 ^ 64) with hlt | hge
  · rw [padBits_of_length_lt hlt] at h
    cases h
    simp only [List.length_append, List.length_singleton, List.length_replicate, length_len64]
  · rw [padBits_of_le_length hge] at h
    cases h

theorem splitBlocks_of_whole_blocks {p : List Bool} (hpos : 0 < p.length) (hwhole : p.length % 512 = 0) :
    splitBlocks p = .ok ((List.range (p.length / 512)).map fun j => (List.range 16).map fun i => streamWord p j i) :=
  if_neg (by omega)

/-- What `pad` answers is never empty and fills whole Blocks, so `split` raises nothing on it. -/
theorem splitBlocks_of_padBits_eq_ok {s p : List Bool} (h : padBits s = .ok p) :
    ∃ blocks, splitBlocks p = .ok blocks := by
  have hlen := length_of_padBits_eq_ok h
  have hfills := padZeros_fills_blocks s.length
  exact ⟨_, splitBlocks_of_whole_blocks (by omega) (by omega)⟩

/-! ### The whole-message function, by what `pad` and `split` answer -/

theorem hashMessage_of_padBits_eq_error {m : List Byte} {e : Cause} (h : padBits (bitEncode m) = .error e) :
    hashMessage m = .error e := by
  simp only [hashMessage, finalState, h]

theorem hashMessage_of_splitBlocks_eq_ok {m : List Byte} {p : List Bool} {blocks : List (List Word)}
    (hpad : padBits (bitEncode m) = .ok p) (hsplit : splitBlocks p = .ok blocks) :
    hashMessage m = .ok (assembleDigest (foldBlocks initialState blocks)) := by
  simp only [hashMessage, finalState, hpad, hsplit]

/-- Settles O57: `pad` refuses exactly the Bitstreams too long for the length field, and what it answers can be split
(`splitBlocks_of_padBits_eq_ok`). -/
theorem hashFailsOnlyOnOverlongInput : Obligations.HashFailsOnlyOnOverlongInput := by
  intro m
  rw [← length_bitEncode m]
  refine ⟨fun hlong => hashMessage_of_padBits_eq_error (padBits_of_le_length hlong), fun hfits => ?_⟩
  have hpad := padBits_of_length_lt hfits
  obtain ⟨blocks, hsplit⟩ := splitBlocks_of_padBits_eq_ok hpad
  exact ⟨_, hashMessage_of_splitBlocks_eq_ok hpad hsplit⟩

/-! ### NOP, INIT and RDSTAT -/

theorem exec_nop (s : State) : exec .nop s = .next (respond false 0 s) := rfl

theorem exec_rdstat (s : State) : exec .rdstat s = .next (respond false (status s) s) := rfl

/-- What INIT writes does not depend on the state before, so a second INIT writes the same again. -/
theorem respond_beginComputation_idem (err : Bool) (data : Word) (s : State) :
    respond err data (beginComputation (respond err data (beginComputation s))) =
      respond err data (beginComputation s) := rfl

/-- Settles O7: NOP only drives the response port (`exec_nop`). -/
theorem nopRespondsZeroAndChangesNothing : Obligations.NopRespondsZeroAndChangesNothing :=
  ⟨rfl, fun s _ => exec_nop s⟩

/-- Settles O8: the state INIT answers (`exec_init`) is the one a second INIT answers from it
(`respond_beginComputation_idem`). -/
theorem initBeginsAnIndependentComputation : Obligations.InitBeginsAnIndependentComputation := by
  refine ⟨rfl, fun s _ => ⟨respond false 0 (beginComputation s), exec_init s, ?twice, rfl⟩⟩
  case twice => rw [exec_init, respond_beginComputation_idem]

/-- Settles O9: RDSTAT answers `status s`, whose value is `toNat_status`. -/
theorem rdstatRespondsStatus : Obligations.RdstatRespondsStatus :=
  ⟨rfl, fun s _ => ⟨status s, exec_rdstat s, toNat_status s⟩⟩

end Sys2Proof.Machine
end

section
/-! PROOFS. Accepting a word in each phase, and the faults of the core: which words raise one, what a step that takes or
leaves one does (30_encoding.md R68; 60_exceptions.md R140, R143 to R149, R161). -/

namespace Sys2Proof.Machine

/-! ### The word of an accepted command -/

/-- The three fields fill the word. -/
theorem toNat_eq_fields (cw : CommandWord) :
    cw.toNat = 4096 * (opField cw).toNat + 256 * (rsvField cw).toNat + (argField cw).toNat := by
  rw [toNat_opField, toNat_rsvField, toNat_argField]
  omega

theorem eq_encode_of_decode_eq_ok {cw : CommandWord} {i : Instr} (h : decode cw = .ok i) : cw = encode i := by
  obtain ⟨-, hop, hrsv, harg⟩ := decode_eq_ok_iff.mp h
  refine BitVec.eq_of_toNat_eq ?_
  rw [toNat_eq_fields, hop, hrsv, harg, toNat_encode]
  rfl

theorem acceptWord_of_decode_eq_ok {cw : CommandWord} {i : Instr} (h : decode cw = .ok i) (s : State) :
    acceptWord cw s = exec i s := by
  rw [acceptWord, h]

/-! ### The phase that serves a command -/

/-- The one phase that serves the command, none for a command every phase serves (60_exceptions.md R144). -/
def servingPhase : Instr → Option Fsm
  | .nop | .init | .rdstat => none
  | .absorb _ | .final => some .absorb
  | .rdword _ | .rdbyte _ | .rdhex _ => some .done

theorem servingPhase_eq_none_iff {i : Instr} : servingPhase i = none ↔ i = .nop ∨ i = .init ∨ i = .rdstat := by
  cases i <;> simp [servingPhase]

/-- A command with a phase of its own goes through the checks of 60_exceptions.md R148. -/
theorem exec_eq_serveInPhase {i : Instr} {phase : Fsm} (h : servingPhase i = some phase) (s : State) :
    ∃ body, exec i s = serveInPhase phase i.wellFormed s body := by
  cases i <;> cases h <;> exact ⟨_, rfl⟩

theorem exec_of_fault {i : Instr} {phase : Fsm} {s : State} (hphase : servingPhase i = some phase)
    (h : s.fsm = .fault) : exec i s = .next (answerRetained s) := by
  obtain ⟨body, hexec⟩ := exec_eq_serveInPhase hphase s
  rw [hexec, serveInPhase_fault h]

theorem exec_outOfPhase {i : Instr} {phase : Fsm} {s : State} (hphase : servingPhase i = some phase)
    (hwf : i.wellFormed = true) (hfault : s.fsm ≠ .fault) (h : s.fsm ≠ phase) :
    exec i s = .next (raiseFault true .sequenceError s) := by
  obtain ⟨body, hexec⟩ := exec_eq_serveInPhase hphase s
  rw [hexec, hwf, serveInPhase_outOfPhase hfault h]

/-! ### Words that raise a fault -/

/-- Settles O18: the ready core accepts the word (`step_accepts`) and refuses it outside FAULT. -/
theorem illegalWordRaisesIllegalCommand : Obligations.IllegalWordRaisesIllegalCommand := by
  intro s a cw rest hphase hinputs hoffered hlegal
  have hready : s.fsm.ready = true := by rcases hphase with h | h | h <;> simp [h]
  have hfault : (beginStep rest s).fsm ≠ .fault := by rcases hphase with h | h | h <;> simp [h]
  rw [step_accepts hinputs hoffered hready, acceptWord_of_not_legal hlegal, refuseIllegal_of_ne_fault hfault]
  rfl

/-- Settles O19: the phase is neither FAULT nor the one that serves the command (`exec_outOfPhase`). -/
theorem commandOutOfPhaseRaisesSequenceError : Obligations.CommandOutOfPhaseRaisesSequenceError := by
  intro i s hwf hcase
  have hfault : s.fsm ≠ .fault := by rcases hcase with ⟨h | h, -⟩ | ⟨h | h, -⟩ <;> simp [h]
  rcases hcase with ⟨hphase, hmessage⟩ | ⟨hphase, hread⟩
  · have hserves : servingPhase i = some .absorb := by rcases hmessage with rfl | ⟨b, rfl⟩ <;> rfl
    exact exec_outOfPhase hserves hwf hfault (by rcases hphase with h | h <;> simp [h])
  · have hserves : servingPhase i = some .done := by rcases hread with ⟨n, rfl⟩ | ⟨n, rfl⟩ | ⟨n, rfl⟩ <;> rfl
    exact exec_outOfPhase hserves hwf hfault (by rcases hphase with h | h <;> simp [h])

/-! ### Words offered in FAULT -/

theorem refuseIllegal_of_fault {s : State} (h : s.fsm = .fault) : refuseIllegal s = answerRetained s := if_pos h

/-- In FAULT the word of a command that only one phase serves, and a word of no command, get the retained cause. -/
theorem acceptWord_of_fault {cw : CommandWord} {s : State} (h : s.fsm = .fault) (hnop : cw ≠ 0x0000)
    (hinit : cw ≠ 0x1000) (hrdstat : cw ≠ 0x4000) : acceptWord cw s = .next (answerRetained s) := by
  cases hdecode : decode cw with
  | error e => rw [acceptWord, hdecode, refuseIllegal_of_fault h]
  | ok i =>
    have hcw := eq_encode_of_decode_eq_ok hdecode
    rw [acceptWord_of_decode_eq_ok hdecode]
    cases hphase : servingPhase i with
    | some phase => exact exec_of_fault hphase h
    | none =>
      rcases servingPhase_eq_none_iff.mp hphase with rfl | rfl | rfl
      · exact absurd hcw hnop
      · exact absurd hcw hinit
      · exact absurd hcw hrdstat

/-- Settles O17: a ready core accepts the word (`step_accepts`); the answered words are `acceptWord_of_fault`, the three
served ones run the command they decode to. -/
theorem faultPhaseKeepsTheFirstCause : Obligations.FaultPhaseKeepsTheFirstCause := by
  intro s a cw rest hfault hinputs hoffered
  have hstep : step s = acceptWord cw (beginStep rest s) := step_accepts hinputs hoffered (by rw [hfault, ready_fault])
  refine ⟨fun hnop hinit hrdstat => hstep.trans (acceptWord_of_fault hfault hnop hinit hrdstat), ?served⟩
  case served =>
    rintro i (⟨rfl, rfl⟩ | ⟨rfl, rfl⟩ | ⟨rfl, rfl⟩)
    · exact ⟨_, _, hstep, exec_nop _, rfl⟩
    · exact ⟨_, _, hstep, exec_init _, rfl⟩
    · exact ⟨_, _, hstep, exec_rdstat _, rfl⟩

/-! ### Steps into FAULT -/

theorem folded_fsm_ne_fault (s : State) : (folded s).fsm ≠ .fault := by
  cases hfin : s.fin with
  | none => simp [folded_none_fsm hfin]
  | extra => simp [folded_extra_fsm hfin]
  | last => simp [folded_last_fsm hfin]

/-- A command that ends in FAULT, entered outside it, has raised a fault (60_exceptions.md R140). -/
theorem CommandEffect.eq_raiseFault {i : Instr} {s u : State} (h : CommandEffect i s u) (hs : s.fsm ≠ .fault)
    (hu : u.fsm = .fault) : ∃ x, x ≠ .none ∧ u = raiseFault true x s := by
  cases h with
  | answered err data => exact absurd hu hs
  | begun => cases hu
  | raised x _ hx => exact ⟨x, hx, rfl⟩
  | absorbed b =>
    rw [absorbed_fsm] at hu
    split at hu
    · cases hu
    · exact absurd hu hs
  | padded => cases hu

/-- The only internal step that ends in FAULT is LOAD with `BUFLEN` other than 64 (60_exceptions.md R146). -/
theorem InternalEffect.eq_raiseFault {s u : State} (h : InternalEffect s u) (hs : s.fsm ≠ .fault)
    (hu : u.fsm = .fault) : s.fsm = .load ∧ u = raiseFault false .internalInvariantViolation s := by
  cases h with
  | nothing => exact absurd hu hs
  | loaded => cases hu
  | loadFault hload => exact ⟨hload, rfl⟩
  | expanded | rounded =>
    simp only [expanded_fsm, rounded_fsm] at hu
    split at hu
    · cases hu
    · exact absurd hu hs
  | folded => exact absurd hu (folded_fsm_ne_fault s)

/-- A step into FAULT takes a fault, and a command is being served exactly when the core was ready. -/
theorem StepsTo.eq_raiseFault {s u : State} (h : StepsTo s u) (hs : s.fsm ≠ .fault) (hu : u.fsm = .fault) :
    ∃ rest x, x ≠ .none ∧ u = raiseFault s.fsm.ready x (beginStep rest s) := by
  cases step_effect h with
  | reset => cases hu
  | command a cw rest i _ _ _ hready _ heffect =>
    obtain ⟨x, hx, rfl⟩ := heffect.eq_raiseFault hs hu
    exact ⟨rest, x, hx, by rw [hready]⟩
  | illegal a cw rest e _ _ hready =>
    exact ⟨rest, .illegalCommand, by decide, by rw [hready]; exact refuseIllegal_of_ne_fault hs⟩
  | internal _ _ _ heffect =>
    obtain ⟨hload, rfl⟩ := heffect.eq_raiseFault hs hu
    rw [beginStep_fsm] at hload
    exact ⟨_, .internalInvariantViolation, by decide, by rw [hload, ready_load]⟩

/-- Settles O20: the step is `raiseFault` (`StepsTo.eq_raiseFault`), which responds when the core was ready. -/
theorem takingAFaultIsPrecise : Obligations.TakingAFaultIsPrecise := by
  intro s u hstep hs hu
  obtain ⟨rest, x, hx, rfl⟩ := hstep.eq_raiseFault hs hu
  cases hready : s.fsm.ready with
  | true => exact ⟨hx, rfl, fun _ => rfl, nofun⟩
  | false => exact ⟨hx, rfl, nofun, fun _ => rfl⟩

/-! ### Steps out of FAULT -/

/-- The only command that leaves FAULT is INIT (60_exceptions.md R149). -/
theorem CommandEffect.eq_beginComputation {i : Instr} {s u : State} (h : CommandEffect i s u) (hs : s.fsm = .fault)
    (hu : u.fsm ≠ .fault) : i = .init ∧ u = respond false 0 (beginComputation s) := by
  cases h with
  | answered err data => exact absurd hs hu
  | begun hinit => exact ⟨hinit, rfl⟩
  | raised x hphase => exact absurd hs hphase
  | absorbed b _ hphase | padded _ hphase => rw [hs] at hphase; cases hphase

theorem InternalEffect.eq_self_of_ready {s u : State} (h : InternalEffect s u) (hready : s.fsm.ready = true) : u = s := by
  cases h with
  | nothing => rfl
  | loaded hbusy | loadFault hbusy | expanded hbusy | rounded hbusy | folded hbusy => simp [hbusy] at hready

/-- Settles O21: of the four effects of a step (`step_effect`) only a reset and the command INIT leave FAULT, and the
word of INIT is the one `eq_encode_of_decode_eq_ok` names. -/
theorem faultIsLeftOnlyByInitOrReset : Obligations.FaultIsLeftOnlyByInitOrReset := by
  intro s u hstep hs hu
  cases step_effect hstep with
  | reset rest hinputs => exact .inl ⟨by rw [hinputs, List.head?_cons], rfl, rfl⟩
  | command a cw rest i _ hinputs hoffered _ hdecode heffect =>
    obtain ⟨rfl, rfl⟩ := heffect.eq_beginComputation hs hu
    have hword : cw = 0x1000 := eq_encode_of_decode_eq_ok hdecode
    exact .inr ⟨by rw [offeredWord_cons hinputs, hoffered, hword], rfl, rfl, rfl, rfl, rfl⟩
  | illegal a cw rest e =>
    have hstays : refuseIllegal (beginStep rest s) = answerRetained (beginStep rest s) := refuseIllegal_of_fault hs
    rw [hstays] at hu
    exact absurd hs hu
  | internal _ _ _ heffect =>
    rw [heffect.eq_self_of_ready (by rw [beginStep_fsm, hs, ready_fault])] at hu
    exact absurd hs hu

/-! ### A ready core with no command -/

theorem offeredWord_eq_none_of_silent {s : State} (h : s.inputs = [] ∨ s.inputs.head? = some .nothing) :
    offeredWord s = none := by
  rcases h with h | h <;> simp [offeredWord, h]

theorem heldInputs_of_silent {l : List HostAction} (h : l = [] ∨ l.head? = some .nothing) : heldInputs l = l.tail := by
  rcases h with rfl | h
  · rfl
  · obtain ⟨rest, rfl⟩ := List.head?_eq_some_iff.mp h
    rfl

/-- Settles O25: the step is the internal one (`step_internal`), and a ready core has none. -/
theorem readyCoreWithNoCommandDoesNothing : Obligations.ReadyCoreWithNoCommandDoesNothing := by
  intro s hready hsilent
  have hreset : s.inputs.head? ≠ some .reset := by rcases hsilent with h | h <;> simp [h]
  rw [step_internal hreset fun _ => offeredWord_eq_none_of_silent hsilent, heldInputs_of_silent hsilent]
  exact internalStep_ready hready

end Sys2Proof.Machine
end

section
/-! PROOFS. The decoder against the encoder, and the command word a ready core runs (30_encoding.md R63 to R69). -/

namespace Sys2Proof.Machine

/-! ### Decoding the word of a command -/

/-- The word of a command carries the command. -/
theorem carriesCommand_encode (i : Instr) : CarriesCommand (encode i) i :=
  Laws.EncodeFields.fields_of_append i.opcode i.operand

/-- Settles O2: the word carries the command (`carriesCommand_encode`), and the decoder answers what a word carries. -/
theorem decodeOfEncodeIsTheCommand : Obligations.DecodeOfEncodeIsTheCommand :=
  fun i hwf => decode_eq_ok_of_carriesCommand hwf (carriesCommand_encode i)

/-- Settles O3: the three fields of an accepted word fix the word (`eq_encode_of_decode_eq_ok`). -/
theorem acceptedWordIsTheWordOfItsCommand : Obligations.AcceptedWordIsTheWordOfItsCommand :=
  fun _ _ h => ⟨(eq_encode_of_decode_eq_ok h).symm, (decode_eq_ok_iff.mp h).1⟩

/-- Settles O4: each word is its opcode and operand as a number (`toNat_encode`). -/
theorem everyCommandHasTheWordOfItsRow : Obligations.EveryCommandHasTheWordOfItsRow :=
  fun x => ⟨toNat_encode .nop, toNat_encode .init, toNat_encode (.absorb x), toNat_encode .final, toNat_encode .rdstat,
    toNat_encode (.rdword x), toNat_encode (.rdbyte x), toNat_encode (.rdhex x)⟩

/-- Settles O5: fourteen fixed words, decoded by evaluation. -/
theorem vectorWordsDecodeAsListed : Obligations.VectorWordsDecodeAsListed := by
  unfold Obligations.VectorWordsDecodeAsListed
  decide

/-! ### The word a ready core runs -/

/-- Settles O22: a ready core accepts the word (`step_accepts`), and accepting it is running what it decodes to. -/
theorem stepRunsTheDecodedCommand : Obligations.StepRunsTheDecodedCommand :=
  fun s _ _ rest _ hready hinputs hoffered hdecode =>
    (step_accepts hinputs hoffered hready).trans (acceptWord_of_decode_eq_ok hdecode (beginStep rest s))

theorem decode_tableWord_of_decodeTableWord {nbits w : Nat} {i : Instr} (h : decodeTableWord nbits w = some i) :
    decode (tableWord nbits w) = .ok i := by
  unfold decodeTableWord at h
  split at h
  case h_1 hdecode => cases h; exact hdecode
  case h_2 => cases h

/-- Settles O23: `withFetchWord` puts the word at the head of the host's list, where a ready core accepts it. -/
theorem stepRunsTheOfferedTableWord : Obligations.StepRunsTheOfferedTableWord :=
  fun s nbits w i hready h =>
    stepRunsTheDecodedCommand (s.withFetchWord nbits w) _ _ s.inputs i hready rfl rfl
      (decode_tableWord_of_decodeTableWord h)

end Sys2Proof.Machine
end

section
/-! PROOFS. The message commands ABSORB and FINAL in each phase, and where they and the steps EXPAND and ROUND stop the
model (40_bit_encoder.md R80, 41_padder.md R91; log entries 8 and 9). -/

namespace Sys2Proof.Machine

/-! ### ABSORB and FINAL outside phase ABSORB -/

/-- A command served in phase ABSORB alone takes SequenceError in IDLE and in DONE (60_exceptions.md R145). -/
theorem exec_message_outOfPhase {i : Instr} {s : State} (hserves : servingPhase i = some .absorb)
    (hwf : i.wellFormed = true) (h : s.fsm = .idle ∨ s.fsm = .done) :
    exec i s = .next (raiseFault true .sequenceError s) :=
  exec_outOfPhase hserves hwf (by rcases h with h | h <;> simp [h]) (by rcases h with h | h <;> simp [h])

/-! ### ABSORB in phase ABSORB -/

/-- The length check comes before the byte is stored (40_bit_encoder.md R80). -/
theorem execAbsorb_tooLarge {b : Byte} {s : State} (hs : s.fsm = .absorb) (hl : 2 ^ 64 - 1 < s.len.toNat + 8) :
    exec (.absorb b) s = .next (raiseFault true .inputTooLarge s) :=
  (serveInPhase_served hs (by decide)).trans (if_pos hl)

theorem execAbsorb_stop {b : Byte} {s : State} (hs : s.fsm = .absorb) (hl : s.len.toNat + 8 ≤ 2 ^ 64 - 1)
    (hn : 64 ≤ s.bufLen.toNat) : exec (.absorb b) s = .fault .bufferIndexOutOfRange :=
  (serveInPhase_served hs (by decide)).trans
    ((if_neg (Nat.not_lt.mpr hl)).trans (if_neg (Nat.not_lt.mpr hn)))

theorem toNat_absorbed_bufLen {b : Byte} {s : State} (h : s.bufLen.toNat ≤ 63) :
    (absorbed b s).bufLen.toNat = s.bufLen.toNat + 1 :=
  BitVec.toNat_add_of_lt (y := 1) (by show s.bufLen.toNat + 1 < 128; omega)

theorem toNat_absorbed_len {b : Byte} {s : State} (h : s.len.toNat + 8 ≤ 2 ^ 64 - 1) :
    (absorbed b s).len.toNat = s.len.toNat + 8 :=
  BitVec.toNat_add_of_lt (y := 8) (by show s.len.toNat + 8 < 2 ^ 64; omega)

/-- Settles O11: outside phase ABSORB by the checks every command shares; inside it the byte is too much
(`execAbsorb_tooLarge`) or is stored (`execAbsorb_served`, `Memory.read_write`). -/
theorem absorbStoresOneMessageByte : Obligations.AbsorbStoresOneMessageByte := by
  intro b s
  refine ⟨exec_of_fault rfl, exec_message_outOfPhase rfl rfl, execAbsorb_tooLarge, fun hs hl hn => ?served⟩
  case served =>
    have hbufLen := toNat_absorbed_bufLen (b := b) hn
    refine ⟨absorbed b s, execAbsorb_served hs hl (Nat.lt_succ_of_le hn), rfl, fun j => Memory.read_write .., hbufLen,
      toNat_absorbed_len hl, ?fsm⟩
    case fsm => rw [hbufLen, absorbed_fsm, hs, bufferBytes]

/-! ### FINAL in phase ABSORB -/

theorem execFinal_stop {s : State} (hs : s.fsm = .absorb) (hn : 64 ≤ s.bufLen.toNat) :
    exec .final s = .fault .bufferIndexOutOfRange :=
  (serveInPhase_served hs (by decide)).trans (if_neg (Nat.not_lt.mpr hn))

/-- The padded Block with the length suffix as base-256 digits, by the position relative to `n`. -/
theorem padBlock_read_eq_digit (m : Memory) {n : Nat} (hn : n ≤ 63) (len : BitVec 64) (b : Nat) :
    (padBlock m n len).read b =
      if b < n ∨ 64 ≤ b then m.read b
      else if b = n then 0x80
      else if n ≤ 55 ∧ 56 ≤ b then BitVec.ofNat 8 (len.toNat / 2 ^ (8 * (63 - b)))
      else 0x00 := by
  rw [padBlock_read m n (Nat.lt_succ_of_le hn), be64byte_eq_ofNat]
  by_cases hout : b < n ∨ 64 ≤ b
  · rw [if_neg (by omega), if_neg (by omega), if_neg (by omega), if_pos hout]
  by_cases hmark : b = n
  · rw [if_neg (by omega), if_pos hmark, if_neg hout, if_pos hmark]
  by_cases hlength : n ≤ 55 ∧ 56 ≤ b
  · have hexp : 56 - 8 * (b - 56) = 8 * (63 - b) := by omega
    rw [if_pos (by omega), if_neg hout, if_neg hmark, if_pos hlength, hexp]
  · rw [if_neg (by omega), if_neg hmark, if_pos (by omega), if_neg hout, if_neg hmark, if_neg hlength]

/-- Settles O12: outside phase ABSORB by the checks every command shares; inside it the Block in `BUF` is
`padBlock_read_eq_digit`. -/
theorem finalPadsTheLastBlock : Obligations.FinalPadsTheLastBlock := by
  intro s
  refine ⟨exec_of_fault rfl, exec_message_outOfPhase rfl rfl, fun hs hn => ?served⟩
  case served =>
    exact ⟨padded s, execFinal_served hs (Nat.lt_succ_of_le hn), rfl, rfl, padBlock_read_eq_digit s.buf hn s.len⟩

/-! ### The two stops of the model -/

/-- Settles O13: past the checks, ABSORB and FINAL ask for room in the buffer. -/
theorem absorbAndFinalStopOutsideTheBuffer : Obligations.AbsorbAndFinalStopOutsideTheBuffer :=
  fun _ _ hs hn => ⟨fun hl => execAbsorb_stop hs hl hn, execFinal_stop hs hn⟩

theorem internalStep_expand_stop {s : State} (h : s.fsm = .expand) (ht : s.t.toNat < 16 ∨ 79 < s.t.toNat) :
    internalStep s = .fault .scheduleIndexOutOfRange := by
  simp only [internalStep, h]
  exact if_neg (by omega)

theorem internalStep_round_stop {s : State} (h : s.fsm = .round) (ht : 79 < s.t.toNat) :
    internalStep s = .fault .scheduleIndexOutOfRange := by
  simp only [internalStep, h]
  exact if_neg (by omega)

/-- Settles O34: the two steps check `T` before they touch `W`. -/
theorem expandAndRoundStopOutsideTheSchedule : Obligations.ExpandAndRoundStopOutsideTheSchedule :=
  fun _ => ⟨internalStep_expand_stop, internalStep_round_stop⟩

end Sys2Proof.Machine
end

section
/-! PROOFS. The step of a busy core and the reset step, and which steps write which registers (30_encoding.md R63;
46_control_and_pipeline.md section 4; 70_reset_and_hazards.md R166, R172; 10_state.md section 2). -/

namespace Sys2Proof.Machine

/-! ### The reset step -/

/-- Settles O26: the step is `resetStep` (`step_reset`), whose control registers are fixed values. -/
theorem resetStepWinsInEveryState : Obligations.ResetStepWinsInEveryState :=
  fun s rest h => ⟨resetStep (beginStep rest s), step_reset h, rfl, rfl, rfl, rfl, rfl, rfl, rfl, rfl⟩

/-! ### The kinds of step -/

/-- What a step does: a reset, an accepted word, or the internal step. -/
theorem step_cases (s : State) :
    (∃ rest, s.inputs = .reset :: rest) ∨
    (∃ a cw rest, s.inputs = a :: rest ∧ a.offered = some cw ∧ s.fsm.ready = true) ∨
    (s.inputs.head? ≠ some .reset ∧ (s.fsm.ready = true → offeredWord s = none)) := by
  by_cases hreset : s.inputs.head? = some .reset
  · exact .inl (List.head?_eq_some_iff.mp hreset)
  by_cases hsilent : s.fsm.ready = true → offeredWord s = none
  · exact .inr (.inr ⟨hreset, hsilent⟩)
  · obtain ⟨hready, hoffered⟩ := Classical.not_imp.mp hsilent
    obtain ⟨cw, hoffered⟩ := Option.ne_none_iff_exists'.mp hoffered
    obtain ⟨a, hhead, ha⟩ := Option.bind_eq_some_iff.mp hoffered
    obtain ⟨rest, hinputs⟩ := List.head?_eq_some_iff.mp hhead
    exact .inr (.inl ⟨a, cw, rest, hinputs, ha, hready⟩)

/-! ### The step of a busy core -/

/-- A busy core that is not reset takes one of the internal steps. -/
theorem StepsTo.internalEffect {s u : State} (h : StepsTo s u) (hreset : s.inputs.head? ≠ some .reset)
    (hbusy : s.fsm.ready = false) : InternalEffect (beginStep (heldInputs s.inputs) s) u :=
  internalStep_effect ((step_busy hreset hbusy).symm.trans h)

/-- What a step of a busy core that is not reset makes of the ports. -/
theorem StepsTo.ports_of_busy {s u : State} (h : StepsTo s u) (hreset : s.inputs.head? ≠ some .reset)
    (hbusy : s.fsm.ready = false) : u.inputs = heldInputs s.inputs ∧ u.rsp = none :=
  ⟨(h.internalEffect hreset hbusy).inputs_eq, (h.internalEffect hreset hbusy).rsp_eq⟩

/-- Settles O24: the step is the internal one (`step_busy`), which leaves a held word at the head of the list. -/
theorem busyCoreLeavesTheCommandOffered : Obligations.BusyCoreLeavesTheCommandOffered := by
  intro s cw rest hbusy hinputs
  have hreset : s.inputs.head? ≠ some .reset := by simp [hinputs]
  have hheld : heldInputs s.inputs = s.inputs := by rw [hinputs]; rfl
  refine ⟨by rw [step_busy hreset hbusy, hheld, beginStep], fun u hstep => ?ports⟩
  case ports => exact hheld ▸ hstep.ports_of_busy hreset hbusy

/-- Settles O60: the internal step starts from the same state, whether the word or the silence is used up. -/
theorem withdrawnWordIsNotAccepted : Obligations.WithdrawnWordIsNotAccepted := by
  intro s cw rest hbusy hinputs
  have hreset : s.inputs.head? ≠ some .reset := by simp [hinputs]
  have hheld : heldInputs s.inputs = rest := by rw [hinputs]; rfl
  refine ⟨?silence, fun u hstep => hheld ▸ hstep.ports_of_busy hreset hbusy⟩
  case silence =>
    have hsilent : step { s with inputs := .nothing :: rest } = internalStep (beginStep rest s) :=
      step_busy (s := { s with inputs := .nothing :: rest }) (by simp) hbusy
    rw [step_busy hreset hbusy, hheld, hsilent]

/-! ### The internal step of each busy state -/

theorem InternalEffect.of_load {s u : State} (h : InternalEffect s u) (hs : s.fsm = .load) :
    (s.bufLen = 64 ∧ u = Machine.loaded s) ∨
      (s.bufLen ≠ 64 ∧ u = raiseFault false .internalInvariantViolation s) := by
  cases h with
  | loaded _ hlen => exact .inl ⟨hlen, rfl⟩
  | loadFault _ hlen => exact .inr ⟨hlen, rfl⟩
  | nothing hr => simp [hs] at hr
  | expanded hf | rounded hf | folded hf => cases hs.symm.trans hf

theorem InternalEffect.of_expand {s u : State} (h : InternalEffect s u) (hs : s.fsm = .expand) :
    u = Machine.expanded s := by
  cases h with
  | expanded => rfl
  | nothing hr => simp [hs] at hr
  | loaded hf | loadFault hf | rounded hf | folded hf => cases hs.symm.trans hf

theorem InternalEffect.of_round {s u : State} (h : InternalEffect s u) (hs : s.fsm = .round) :
    u = Machine.rounded s := by
  cases h with
  | rounded => rfl
  | nothing hr => simp [hs] at hr
  | loaded hf | loadFault hf | expanded hf | folded hf => cases hs.symm.trans hf

theorem InternalEffect.of_fold {s u : State} (h : InternalEffect s u) (hs : s.fsm = .fold) : u = Machine.folded s := by
  cases h with
  | folded => rfl
  | nothing hr => simp [hs] at hr
  | loaded hf | loadFault hf | expanded hf | rounded hf => cases hs.symm.trans hf

/-- Settles O37: the state the core is in names its internal step, whose registers the rows list. -/
theorem busyStatesFollowTheTransitionTable : Obligations.BusyStatesFollowTheTransitionTable := by
  intro s u hstep hreset
  have heffect (hbusy : s.fsm.ready = false) := hstep.internalEffect hreset hbusy
  refine ⟨fun hs hlen => ?load, fun hs hlen => ?loadFault, fun hs ht => ?expand, fun hs ht => ?expandLast,
    fun hs ht => ?round, fun hs ht => ?roundLast, fun hs hfin => ?foldNone, fun hs hfin => ?foldExtra,
    fun hs hfin => ?foldLast⟩
  case load =>
    rcases (heffect (by simp [hs])).of_load hs with ⟨-, rfl⟩ | ⟨hne, -⟩
    · exact ⟨rfl, rfl⟩
    · exact absurd hlen hne
  case loadFault =>
    rcases (heffect (by simp [hs])).of_load hs with ⟨heq, -⟩ | ⟨-, rfl⟩
    · exact absurd heq hlen
    · exact ⟨rfl, rfl⟩
  case expand =>
    rw [(heffect (by simp [hs])).of_expand hs, expanded_fsm, expanded_t, beginStep_t, beginStep_fsm, if_neg ht.ne, if_neg ht.ne]
    exact ⟨hs, rfl⟩
  case expandLast =>
    rw [(heffect (by simp [hs])).of_expand hs, expanded_fsm, expanded_t, beginStep_t, beginStep_fsm, if_pos ht, if_pos ht]
    exact ⟨rfl, rfl⟩
  case round =>
    rw [(heffect (by simp [hs])).of_round hs, rounded_fsm, rounded_t, beginStep_t, beginStep_fsm, if_neg ht.ne, if_neg ht.ne]
    exact ⟨hs, rfl⟩
  case roundLast =>
    rw [(heffect (by simp [hs])).of_round hs, rounded_fsm, rounded_t, beginStep_t, beginStep_fsm, if_pos ht, if_pos ht]
    exact ⟨rfl, rfl⟩
  case foldNone =>
    rw [(heffect (by simp [hs])).of_fold hs]
    exact folded_none_fsm hfin
  case foldExtra =>
    rw [(heffect (by simp [hs])).of_fold hs]
    exact ⟨folded_extra_fsm hfin, folded_extra_fin hfin⟩
  case foldLast =>
    rw [(heffect (by simp [hs])).of_fold hs]
    exact ⟨folded_last_fsm hfin, folded_last_fin hfin⟩

/-! ### Which steps write which registers -/

theorem refuseIllegal_keeps_data (s : State) :
    (refuseIllegal s).h = s.h ∧ (refuseIllegal s).work = s.work ∧ (refuseIllegal s).w = s.w ∧
      (refuseIllegal s).buf = s.buf := by
  unfold refuseIllegal
  split <;> exact ⟨rfl, rfl, rfl, rfl⟩

/-- Of the commands only INIT writes `H` (10_state.md R22). -/
theorem CommandEffect.h_eq {i : Instr} {s u : State} (h : CommandEffect i s u) (hi : i ≠ .init) : u.h = s.h := by
  cases h with
  | begun hinit => exact absurd hinit hi
  | answered | raised | absorbed | padded => rfl

/-- No command writes the working registers or the Schedule (10_state.md R24, R25). -/
theorem CommandEffect.keeps_schedule {i : Instr} {s u : State} (h : CommandEffect i s u) :
    u.work = s.work ∧ u.w = s.w := by
  cases h <;> exact ⟨rfl, rfl⟩

/-- Of the commands only ABSORB and FINAL write `BUF`, and only in phase ABSORB (10_state.md R26). -/
theorem CommandEffect.of_buf_ne {i : Instr} {s u : State} (h : CommandEffect i s u) (hne : u.buf ≠ s.buf) :
    s.fsm = .absorb ∧ ((∃ b, i = .absorb b) ∨ i = .final) := by
  cases h with
  | absorbed b hi hs => exact ⟨hs, .inl ⟨b, hi⟩⟩
  | padded hi hs => exact ⟨hs, .inr hi⟩
  | answered | begun | raised => exact absurd rfl hne

/-- Of the internal steps only FOLD writes `H`. -/
theorem InternalEffect.h_eq {s u : State} (h : InternalEffect s u) (hs : s.fsm ≠ .fold) : u.h = s.h := by
  cases h with
  | folded hf => exact absurd hf hs
  | nothing | loaded | loadFault | expanded | rounded => rfl

theorem InternalEffect.of_work_ne {s u : State} (h : InternalEffect s u) (hne : u.work ≠ s.work) :
    s.fsm = .load ∨ s.fsm = .round := by
  cases h with
  | loaded hf => exact .inl hf
  | rounded hf => exact .inr hf
  | nothing | loadFault | expanded => exact absurd rfl hne
  | folded => exact absurd (folded_work s) hne

theorem InternalEffect.of_w_ne {s u : State} (h : InternalEffect s u) (hne : u.w ≠ s.w) :
    s.fsm = .load ∨ s.fsm = .expand := by
  cases h with
  | loaded hf => exact .inl hf
  | expanded hf => exact .inr hf
  | nothing | loadFault | rounded => exact absurd rfl hne
  | folded => exact absurd (folded_w s) hne

theorem InternalEffect.of_buf_ne {s u : State} (h : InternalEffect s u) (hne : u.buf ≠ s.buf) :
    s.fsm = .fold ∧ s.fin = .extra := by
  cases h with
  | folded hf =>
    cases hfin : s.fin with
    | extra => exact ⟨hf, rfl⟩
    | none => exact absurd (folded_none_buf hfin) hne
    | last => exact absurd (folded_last_buf hfin) hne
  | nothing | loaded | loadFault | expanded | rounded => exact absurd rfl hne

/-- Settles O35: of the four effects of a step (`step_effect`) a refused word leaves `H` alone, and the other three write it
only as reset, INIT and FOLD. -/
theorem stateRegistersAreWrittenOnlyByInitAndFold : Obligations.StateRegistersAreWrittenOnlyByInitAndFold := by
  intro s u hstep hne
  cases step_effect hstep with
  | reset rest hinputs => exact .inl (by rw [hinputs, List.head?_cons])
  | command a cw rest i _ hinputs hoffered hready hdecode heffect =>
    have hi : i = .init := not_not.mp fun hi => hne (heffect.h_eq hi)
    have hword : cw = 0x1000 := by rw [eq_encode_of_decode_eq_ok hdecode, hi]; rfl
    exact .inr (.inl ⟨hready, by rw [offeredWord_cons hinputs, hoffered, hword]⟩)
  | illegal a cw rest => exact absurd (refuseIllegal_keeps_data (beginStep rest s)).1 hne
  | internal _ _ _ heffect => exact .inr (.inr (not_not.mp fun hs => hne (heffect.h_eq hs)))

/-- Settles O36: a command writes `BUF` alone (`CommandEffect.of_buf_ne`), a refused word nothing, an internal step what its
state is there for. -/
theorem dataRegistersAreWrittenOnlyByTheirTransitions : Obligations.DataRegistersAreWrittenOnlyByTheirTransitions := by
  intro s u hstep hreset
  cases step_effect hstep with
  | reset rest hinputs => exact absurd (by rw [hinputs, List.head?_cons]) hreset
  | command a cw rest i _ hinputs hoffered _ hdecode heffect =>
    obtain ⟨hwork, hw⟩ := heffect.keeps_schedule
    have hword : offeredWord s = some (encode i) := by
      rw [offeredWord_cons hinputs, hoffered, eq_encode_of_decode_eq_ok hdecode]
    refine ⟨fun h => absurd hwork h, fun h => absurd hw h, fun h => .inl ?_⟩
    obtain ⟨hs, ⟨b, rfl⟩ | rfl⟩ := heffect.of_buf_ne h
    · exact ⟨hs, .inl ⟨b, hword⟩⟩
    · exact ⟨hs, .inr hword⟩
  | illegal a cw rest =>
    obtain ⟨-, hwork, hw, hbuf⟩ := refuseIllegal_keeps_data (beginStep rest s)
    exact ⟨fun h => absurd hwork h, fun h => absurd hw h, fun h => absurd hbuf h⟩
  | internal _ _ _ heffect =>
    exact ⟨heffect.of_work_ne, heffect.of_w_ne, fun h => .inr (heffect.of_buf_ne h)⟩

end Sys2Proof.Machine
end

section
/-! PROOFS. The invariant of the machine: it holds after reset, every step keeps it, no step stops under it
(10_state.md section 10; 60_exceptions.md R146). -/

namespace Sys2Proof.Machine

/-! ### What the invariant says of a ready and of a busy core -/

/-- Settles O38: the buffer lists nothing, and the control registers are fixed values. -/
theorem invariantHoldsAtReset : Obligations.InvariantHoldsAtReset :=
  ⟨reset_buf_wf, ⟨rfl, rfl, rfl, rfl, rfl⟩, rfl, nofun⟩

/-- A ready core is quiescent (10_state.md R40). -/
theorem Inv.quiescent {s : State} (hs : Inv s) (hready : s.fsm.ready = true) :
    s.t = 0 ∧ s.fin = .none ∧ s.bufLen.toNat ≤ 63 := by
  have hc := hs.control
  rcases ready_iff.mp hready with h | h | h | h <;> simp only [ControlInv, h] at hc
  · obtain ⟨-, ht, hfin, hbufLen, -⟩ := hc
    exact ⟨ht, hfin, by simp [hbufLen]⟩
  · obtain ⟨-, ht, hfin, hbufLen⟩ := hc
    exact ⟨ht, hfin, by omega⟩
  · obtain ⟨-, ht, hfin, hbufLen⟩ := hc
    exact ⟨ht, hfin, by simp [hbufLen]⟩
  · obtain ⟨-, -, ht, hfin, hbufLen⟩ := hc
    exact ⟨ht, hfin, hbufLen⟩

theorem Inv.bufLen_of_absorb {s : State} (hs : Inv s) (h : s.fsm = .absorb) :
    s.bufLen.toNat = s.len.toNat / 8 % 64 := by
  have hc := hs.control
  simp only [ControlInv, h] at hc
  exact hc.2.2.2

theorem Inv.bufLen_of_done {s : State} (hs : Inv s) (h : s.fsm = .done) : s.bufLen = 0 := by
  have hc := hs.control
  simp only [ControlInv, h] at hc
  exact hc.2.2.2

/-- A busy core holds a full Block. -/
theorem Inv.bufLen_of_busy {s : State} (hs : Inv s) (hbusy : s.fsm.ready = false) : s.bufLen = 64 := by
  have hc := hs.control
  rcases busy_iff.mp hbusy with h | h | h | h <;> simp only [ControlInv, h] at hc
  · exact hc.2.2
  · exact hc.2.2.2
  · exact hc.2.2
  · exact hc.2.2

theorem Inv.cause_eq_none {s : State} (hs : Inv s) (h : s.fsm ≠ .fault) : s.cause = .none := by
  have hc := hs.control
  cases hf : s.fsm <;> simp only [ControlInv, hf] at hc
  case fault => exact absurd hf h
  all_goals exact hc.1

theorem Inv.cause_of_fault {s : State} (hs : Inv s) (h : s.fsm = .fault) :
    s.cause ≠ .none ∧ s.cause ≠ .internalInvariantViolation := by
  have hc := hs.control
  simp only [ControlInv, h] at hc
  exact ⟨hc.1, hc.2.1⟩

/-- Settles O41: each clause is read off the control registers by state. -/
theorem readyCoreIsQuiescent : Obligations.ReadyCoreIsQuiescent := by
  intro s hs
  refine ⟨⟨fun hcause => ?fault, fun h => (hs.cause_of_fault h).1⟩, ?cause, fun hready => ?quiescent,
    hs.bufLen_of_absorb, hs.bufLen_of_done, fun hbusy => by rw [hs.bufLen_of_busy hbusy]; rfl⟩
  case fault => exact not_not.mp fun h => hcause (hs.cause_eq_none h)
  case cause =>
    by_cases h : s.fsm = .fault
    · exact (hs.cause_of_fault h).2
    · rw [hs.cause_eq_none h]
      decide
  case quiescent =>
    obtain ⟨ht, hfin, hbufLen⟩ := hs.quiescent hready
    exact ⟨ht, hfin, hbufLen, hs.wholeBytes⟩

/-! ### Every step keeps the invariant -/

/-- No Block is in progress in a ready core. -/
theorem Inv.of_ready {s : State} (hbuf : s.buf.wf = true) (hcontrol : ControlInv s) (hbytes : s.len.toNat % 8 = 0)
    (hready : s.fsm.ready = true) : Inv s :=
  ⟨hbuf, hcontrol, hbytes, fun hbusy => absurd hready (Bool.eq_false_iff.mp hbusy)⟩

/-- The ports are not part of the invariant. -/
theorem Inv.beginStep {s : State} (hs : Inv s) (rest : List HostAction) : Inv (beginStep rest s) :=
  ⟨hs.bufWf, hs.control, hs.wholeBytes, hs.wholeBlocks⟩

theorem Inv.respond {s : State} (hs : Inv s) (err : Bool) (data : Word) : Inv (respond err data s) :=
  ⟨hs.bufWf, hs.control, hs.wholeBytes, hs.wholeBlocks⟩

/-- A fault taken by a command keeps the registers of a ready core, which are those FAULT asks for. -/
theorem Inv.raiseFault {s : State} (hs : Inv s) (hready : s.fsm.ready = true) {x : Cause} (hnone : x ≠ .none)
    (hviolation : x ≠ .internalInvariantViolation) : Inv (raiseFault true x s) := by
  obtain ⟨ht, hfin, hbufLen⟩ := hs.quiescent hready
  exact .of_ready hs.bufWf ⟨hnone, hviolation, ht, hfin, hbufLen⟩ hs.wholeBytes ready_fault

theorem Inv.refuseIllegal {s : State} (hs : Inv s) (hready : s.fsm.ready = true) : Inv (refuseIllegal s) := by
  by_cases h : s.fsm = .fault
  · rw [refuseIllegal_of_fault h]
    exact hs.respond true s.cause.data
  · rw [refuseIllegal_of_ne_fault h]
    exact hs.raiseFault hready (by decide) (by decide)

theorem Inv.resetStep {s : State} : Inv (resetStep s) :=
  .of_ready (drawnBuffer_wf s.draws) ⟨rfl, rfl, rfl, rfl, rfl⟩ rfl ready_idle

/-- A stored byte is counted in `BUFLEN` and in `LEN` alike, and the 64th one ends a Block of 512 bits. -/
theorem Inv.absorbed {s : State} (hs : Inv s) (h : s.fsm = .absorb) (hl : s.len.toNat + 8 ≤ 2 ^ 64 - 1) (b : Byte) :
    Inv (absorbed b s) := by
  obtain ⟨ht, hfin, hroom⟩ := hs.quiescent (by simp [h])
  have hcause := hs.cause_eq_none (by simp [h])
  have hcount := hs.bufLen_of_absorb h
  have hbytes := hs.wholeBytes
  have hbufLen := toNat_absorbed_bufLen (b := b) hroom
  have hlen := toNat_absorbed_len (b := b) hl
  refine ⟨Memory.wf_write hs.bufWf (Nat.lt_succ_of_le hroom), ?control, by omega, fun hbusy _ => ?blocks⟩
  case control =>
    by_cases hfull : s.bufLen.toNat + 1 = bufferBytes
    · have hfsm : (Machine.absorbed b s).fsm = .load := if_pos hfull
      simp only [ControlInv, hfsm]
      exact ⟨hcause, ht, BitVec.eq_of_toNat_eq (hbufLen.trans hfull)⟩
    · have hfsm : (Machine.absorbed b s).fsm = .absorb := (if_neg hfull).trans h
      rw [bufferBytes] at hfull
      simp only [ControlInv, hfsm]
      exact ⟨hcause, ht, hfin, by omega⟩
  case blocks =>
    have hfull : s.bufLen.toNat + 1 = bufferBytes := by
      refine not_not.mp fun hfull => ?_
      rw [absorbed_fsm, if_neg hfull, h, ready_absorb] at hbusy
      cases hbusy
    rw [bufferBytes] at hfull
    omega

theorem Inv.padded {s : State} (hs : Inv s) (h : s.fsm = .absorb) : Inv (padded s) := by
  obtain ⟨ht, -, hroom⟩ := hs.quiescent (by simp [h])
  refine ⟨padBlock_wf hs.bufWf (Nat.lt_succ_of_le hroom) s.len, ⟨hs.cause_eq_none (by simp [h]), ht, rfl⟩,
    hs.wholeBytes, fun _ hfin => ?stage⟩
  case stage =>
    rw [padded_fin] at hfin
    split at hfin <;> cases hfin

theorem CommandEffect.keeps_inv {i : Instr} {s u : State} (h : CommandEffect i s u) (hready : s.fsm.ready = true)
    (hs : Inv s) : Inv u := by
  cases h with
  | answered err data => exact hs.respond err data
  | begun => exact .of_ready hs.bufWf ⟨rfl, rfl, rfl, by simp⟩ rfl ready_absorb
  | raised x _ hnone hviolation => exact hs.raiseFault hready hnone hviolation
  | absorbed b _ hphase hl => exact hs.absorbed hphase hl b
  | padded _ hphase => exact hs.padded hphase

/-- FOLD consumes the Block: the message goes on at a Block boundary, its extra Block follows, or it is done. -/
theorem Inv.folded {s : State} (hs : Inv s) (h : s.fsm = .fold) : Inv (folded s) := by
  have hcause : (Machine.folded s).cause = .none := (folded_cause s).trans (hs.cause_eq_none (by simp [h]))
  have ht : (Machine.folded s).t = 0 := by
    have hc := hs.control
    simp only [ControlInv, h] at hc
    exact (folded_t s).trans hc.2.1
  have hbytes : (Machine.folded s).len.toNat % 8 = 0 := (folded_len s).symm ▸ hs.wholeBytes
  cases hfin : s.fin with
  | none =>
    have hfsm := folded_none_fsm hfin
    have hblocks := hs.wholeBlocks (by simp [h]) hfin
    refine ⟨(folded_none_buf hfin).symm ▸ hs.bufWf, ?control, hbytes, by simp [hfsm]⟩
    case control =>
      simp only [ControlInv, hfsm]
      refine ⟨hcause, ht, folded_none_fin hfin, ?_⟩
      rw [folded_none_bufLen hfin, folded_len, BitVec.ofNat_eq_ofNat, BitVec.toNat_zero]
      omega
  | extra =>
    have hfsm := folded_extra_fsm hfin
    refine ⟨(folded_extra_buf hfin).symm ▸ extraBlock_wf hs.bufWf s.len, ?control, hbytes, by simp [folded_extra_fin hfin]⟩
    case control =>
      simp only [ControlInv, hfsm]
      exact ⟨hcause, ht, folded_extra_bufLen hfin⟩
  | last =>
    have hfsm := folded_last_fsm hfin
    refine ⟨(folded_last_buf hfin).symm ▸ hs.bufWf, ?control, hbytes, by simp [hfsm]⟩
    case control =>
      simp only [ControlInv, hfsm]
      exact ⟨hcause, ht, folded_last_fin hfin, folded_last_bufLen hfin⟩

theorem Inv.expanded {s : State} (hs : Inv s) (h : s.fsm = .expand) (hlow : 16 ≤ s.t.toNat) (hhigh : s.t.toNat ≤ 79) :
    Inv (expanded s) := by
  have hbufLen := hs.bufLen_of_busy (by simp [h])
  have hcause := hs.cause_eq_none (by simp [h])
  have hcount := toNat_expanded_t hhigh
  refine ⟨hs.bufWf, ?control, hs.wholeBytes, fun _ => hs.wholeBlocks (by simp [h])⟩
  by_cases hlast : s.t.toNat = 79
  · have hfsm : (Machine.expanded s).fsm = .round := if_pos hlast
    simp only [ControlInv, hfsm]
    rw [if_pos hlast] at hcount
    exact ⟨hcause, by omega, hbufLen⟩
  · have hfsm : (Machine.expanded s).fsm = .expand := (if_neg hlast).trans h
    simp only [ControlInv, hfsm]
    rw [if_neg hlast] at hcount
    exact ⟨hcause, by omega, by omega, hbufLen⟩

theorem Inv.rounded {s : State} (hs : Inv s) (h : s.fsm = .round) (hhigh : s.t.toNat ≤ 79) : Inv (rounded s) := by
  have hbufLen := hs.bufLen_of_busy (by simp [h])
  have hcause := hs.cause_eq_none (by simp [h])
  have hcount := toNat_rounded_t hhigh
  refine ⟨hs.bufWf, ?control, hs.wholeBytes, fun _ => hs.wholeBlocks (by simp [h])⟩
  by_cases hlast : s.t.toNat = 79
  · have hfsm : (Machine.rounded s).fsm = .fold := if_pos hlast
    simp only [ControlInv, hfsm]
    exact ⟨hcause, if_pos hlast, hbufLen⟩
  · have hfsm : (Machine.rounded s).fsm = .round := (if_neg hlast).trans h
    simp only [ControlInv, hfsm]
    rw [if_neg hlast] at hcount
    exact ⟨hcause, by omega, hbufLen⟩

theorem InternalEffect.keeps_inv {s u : State} (h : InternalEffect s u) (hs : Inv s) : Inv u := by
  cases h with
  | nothing => exact hs
  | loaded hf hlen =>
    exact ⟨hs.bufWf, ⟨hs.cause_eq_none (by simp [hf]), by simp, by simp, hlen⟩, hs.wholeBytes,
      fun _ => hs.wholeBlocks (by simp [hf])⟩
  | loadFault hf hlen => exact absurd (hs.bufLen_of_busy (by simp [hf])) hlen
  | expanded hf hlow hhigh => exact hs.expanded hf hlow hhigh
  | rounded hf hhigh => exact hs.rounded hf hhigh
  | folded hf => exact hs.folded hf

/-- Settles O39: each of the four effects of a step (`step_effect`) keeps the invariant. -/
theorem everyStepKeepsTheInvariant : Obligations.EveryStepKeepsTheInvariant := by
  intro s u hs hstep
  cases step_effect hstep with
  | reset => exact Inv.resetStep
  | command a cw rest i _ _ _ hready _ heffect => exact heffect.keeps_inv hready (hs.beginStep rest)
  | illegal a cw rest e _ _ hready => exact (hs.beginStep rest).refuseIllegal hready
  | internal _ _ _ heffect => exact heffect.keeps_inv (hs.beginStep _)

/-! ### No step stops under the invariant -/

theorem Inv.internalStep_answers {s : State} (hs : Inv s) : ∃ u, internalStep s = .next u := by
  have hc := hs.control
  cases hf : s.fsm <;> simp only [ControlInv, hf] at hc
  case idle | absorb | done | fault => exact ⟨s, internalStep_ready (by simp [hf])⟩
  case load => exact ⟨_, internalStep_load hf hc.2.2⟩
  case expand => exact ⟨_, internalStep_expand hf hc.2.1 hc.2.2.1⟩
  case round => exact ⟨_, internalStep_round hf hc.2.1⟩
  case fold => exact ⟨_, internalStep_fold hf⟩

/-- In phase ABSORB the invariant leaves room for a byte, all that a command asks for. -/
theorem Inv.acceptWord_answers {s : State} (hs : Inv s) (cw : CommandWord) : ∃ u, acceptWord cw s = .next u := by
  unfold acceptWord
  split
  · exact exec_answers fun h => Nat.lt_succ_of_le (hs.quiescent (by simp [h])).2.2
  · exact ⟨_, rfl⟩

/-- Settles O40: whatever the host does, the step resets, accepts a word or takes the internal step, and each of these answers
under the invariant. -/
theorem machineNeverStopsUnderTheInvariant : Obligations.MachineNeverStopsUnderTheInvariant := by
  intro s hs
  unfold StepsTo
  rcases step_cases s with ⟨rest, hinputs⟩ | ⟨a, cw, rest, hinputs, ha, hready⟩ | ⟨hreset, hsilent⟩
  · exact ⟨_, step_reset hinputs⟩
  · rw [step_accepts hinputs ha hready]
    exact (hs.beginStep rest).acceptWord_answers cw
  · rw [step_internal hreset hsilent]
    exact (hs.beginStep _).internalStep_answers

end Sys2Proof.Machine
end

section
/-! PROOFS. States that differ at most in dead data are answered alike for ever: a simulation, step by step (10_state.md
R37, R41; 46_control_and_pipeline.md R134). -/

namespace Sys2Proof.Machine

/-! ### What is live in each sequencer state -/

theorem LiveDataEq.of_absorb {s u : State} (h : LiveDataEq s u) (hs : s.fsm = .absorb) :
    s.h = u.h ∧ ∀ j < s.bufLen.toNat, s.buf.read j = u.buf.read j := by
  simpa only [LiveDataEq, hs] using h

theorem LiveDataEq.of_done {s u : State} (h : LiveDataEq s u) (hs : s.fsm = .done) : s.h = u.h := by
  simpa only [LiveDataEq, hs] using h

theorem LiveDataEq.of_load {s u : State} (h : LiveDataEq s u) (hs : s.fsm = .load) :
    s.h = u.h ∧ ∀ j < 64, s.buf.read j = u.buf.read j := by
  simpa only [LiveDataEq, hs] using h

theorem LiveDataEq.of_expand {s u : State} (h : LiveDataEq s u) (hs : s.fsm = .expand) :
    s.h = u.h ∧ s.work = u.work ∧ ∀ i < s.t.toNat, scheduleAt s.w i = scheduleAt u.w i := by
  simpa only [LiveDataEq, hs] using h

theorem LiveDataEq.of_round {s u : State} (h : LiveDataEq s u) (hs : s.fsm = .round) :
    s.h = u.h ∧ s.work = u.work ∧ s.w = u.w := by
  simpa only [LiveDataEq, hs] using h

theorem LiveDataEq.of_fold {s u : State} (h : LiveDataEq s u) (hs : s.fsm = .fold) :
    s.h = u.h ∧ s.work = u.work ∧ s.w = u.w := by
  simpa only [LiveDataEq, hs] using h

/-! ### Reads of the buffer and the Schedule depend on live data alone -/

/-- A byte written at `n` extends the range in which two buffers agree. -/
theorem read_write_eq_of_lt {m m' : Memory} {n : Nat} (h : ∀ j < n, m.read j = m'.read j) (b : Byte) :
    ∀ j < n + 1, (m.write n b).read j = (m'.write n b).read j := by
  intro j hj
  rw [Memory.read_write, Memory.read_write]
  split
  · rfl
  · exact h j (by omega)

/-- The padded Block depends on the message bytes below `n` alone. -/
theorem padBlock_read_eq_of_lt {m m' : Memory} {n : Nat} (hn : n < 64) (len : BitVec 64)
    (h : ∀ j < n, m.read j = m'.read j) : ∀ j < 64, (padBlock m n len).read j = (padBlock m' n len).read j := by
  intro j hj
  rw [padBlock_read m n hn, padBlock_read m' n hn]
  split_ifs
  · rfl
  · rfl
  · rfl
  · exact h j (by omega)

/-- The extra Block depends on nothing of the buffer. -/
theorem extraBlock_read_eq (m m' : Memory) (len : BitVec 64) :
    ∀ j < 64, (extraBlock m len).read j = (extraBlock m' len).read j := by
  intro j hj
  rw [extraBlock_read, extraBlock_read]
  split_ifs
  · rfl
  · rfl
  · omega

theorem readWord_eq_of_read_eq {m m' : Memory} (h : ∀ j < 64, m.read j = m'.read j) {i : Nat} (hi : i < 16) :
    m.readWord (4 * i) = m'.readWord (4 * i) := by
  rw [Memory.readWord, Memory.readWord, h _ (by omega), h _ (by omega), h _ (by omega), h _ (by omega)]

/-- EXPAND reads four Words below `n` and extends the range in which two Schedules agree. -/
theorem scheduleAt_expand_eq_of_lt {w w' : Vector Word 80} {n : Nat} (hlow : 16 ≤ n) (hhigh : n ≤ 79)
    (h : ∀ i < n, scheduleAt w i = scheduleAt w' i) :
    ∀ i < n + 1, scheduleAt (w.setIfInBounds n (nextScheduleWord w n)) i =
      scheduleAt (w'.setIfInBounds n (nextScheduleWord w' n)) i := by
  intro i hi
  have hnext : nextScheduleWord w n = nextScheduleWord w' n := by
    rw [nextScheduleWord, nextScheduleWord, h _ (by omega), h _ (by omega), h _ (by omega), h _ (by omega)]
  rw [scheduleAt_set _ _ _ _ (by omega), scheduleAt_set _ _ _ _ (by omega), hnext]
  split
  · rfl
  · exact h i (by omega)

/-! ### The shared operations -/

theorem Indistinguishable.beginStep {s u : State} (h : Indistinguishable s u) (rest : List HostAction) :
    Indistinguishable (beginStep rest s) (beginStep rest u) := by
  obtain ⟨⟨hfsm, hcause, hbufLen, hlen, ht, hfin, -, -⟩, hlive⟩ := h
  exact ⟨⟨hfsm, hcause, hbufLen, hlen, ht, hfin, rfl, rfl⟩, hlive⟩

theorem Indistinguishable.respond {s u : State} (h : Indistinguishable s u) (err : Bool) (data : Word) :
    Indistinguishable (respond err data s) (respond err data u) := by
  obtain ⟨⟨hfsm, hcause, hbufLen, hlen, ht, hfin, hinputs, -⟩, hlive⟩ := h
  exact ⟨⟨hfsm, hcause, hbufLen, hlen, ht, hfin, hinputs, rfl⟩, hlive⟩

theorem Indistinguishable.raiseFault {s u : State} (h : Indistinguishable s u) (serving : Bool) (x : Cause) :
    Indistinguishable (raiseFault serving x s) (raiseFault serving x u) := by
  obtain ⟨⟨-, -, hbufLen, hlen, ht, hfin, hinputs, hrsp⟩, -⟩ := h
  cases serving with
  | true => exact ⟨⟨rfl, rfl, hbufLen, hlen, ht, hfin, hinputs, rfl⟩, trivial⟩
  | false => exact ⟨⟨rfl, rfl, hbufLen, hlen, ht, hfin, hinputs, hrsp⟩, trivial⟩

theorem Indistinguishable.answerRetained {s u : State} (h : Indistinguishable s u) :
    Indistinguishable (answerRetained s) (answerRetained u) := by
  unfold Machine.answerRetained
  rw [h.control.cause]
  exact h.respond true _

theorem Indistinguishable.refuseIllegal {s u : State} (h : Indistinguishable s u) :
    Indistinguishable (refuseIllegal s) (refuseIllegal u) := by
  unfold Machine.refuseIllegal
  rw [h.control.fsm]
  split
  · exact h.answerRetained
  · exact h.raiseFault true _

/-- What INIT leaves depends on the state before in nothing but the ports. -/
theorem indistinguishable_beginComputation {s u : State} (hinputs : s.inputs = u.inputs) (hrsp : s.rsp = u.rsp) :
    Indistinguishable (beginComputation s) (beginComputation u) :=
  ⟨⟨rfl, rfl, rfl, rfl, rfl, rfl, hinputs, hrsp⟩, rfl, fun _ hj => absurd hj (Nat.not_lt_zero _)⟩

/-- After a reset step no data is live, so the free values are not either. -/
theorem Indistinguishable.resetStep {s u : State} (h : Indistinguishable s u) :
    Indistinguishable (resetStep s) (resetStep u) :=
  ⟨⟨rfl, rfl, rfl, rfl, rfl, rfl, h.control.inputs, h.control.rsp⟩, trivial⟩

/-! ### The commands -/

/-- The phase check reads control registers alone. -/
theorem Indistinguishable.serveInPhase {phase : Fsm} {l : Bool} {s u : State}
    {body body' : Host.Outcome State Fault Refusal} (h : Indistinguishable s u)
    (hbody : s.fsm = phase → IndistinguishableOutcome body body') :
    IndistinguishableOutcome (serveInPhase phase l s body) (serveInPhase phase l u body') := by
  unfold Machine.serveInPhase
  rw [← h.control.fsm]
  split_ifs with _ _ hphase
  · exact h.answerRetained
  · exact h.raiseFault true _
  · exact hbody hphase
  · exact h.raiseFault true _

theorem Indistinguishable.absorbed {s u : State} (h : Indistinguishable s u) (hs : s.fsm = .absorb)
    (hroom : s.bufLen.toNat < 64) (b : Byte) : Indistinguishable (absorbed b s) (absorbed b u) := by
  obtain ⟨⟨hfsm, hcause, hbufLen, hlen, ht, hfin, hinputs, -⟩, hlive⟩ := h
  obtain ⟨hh, hbuf⟩ := hlive.of_absorb hs
  have hread := read_write_eq_of_lt hbuf b
  refine ⟨⟨?fsm, hcause, by simp [hbufLen], by simp [hlen], ht, hfin, hinputs, rfl⟩, ?live⟩
  case fsm => rw [absorbed_fsm, absorbed_fsm, hfsm, hbufLen]
  case live =>
    by_cases hfull : s.bufLen.toNat + 1 = bufferBytes
    · have hload : (Machine.absorbed b s).fsm = .load := if_pos hfull
      simp only [LiveDataEq, hload, absorbed_h, absorbed_buf]
      exact ⟨hh, fun j hj => hbufLen ▸ hread j (hfull ▸ hj)⟩
    · have habsorb : (Machine.absorbed b s).fsm = .absorb := (if_neg hfull).trans hs
      simp only [LiveDataEq, habsorb, toNat_absorbed_bufLen (Nat.le_of_lt_succ hroom)]
      exact ⟨hh, fun j hj => by rw [absorbed_buf, absorbed_buf, ← hbufLen, hread j hj]⟩

theorem Indistinguishable.padded {s u : State} (h : Indistinguishable s u) (hs : s.fsm = .absorb)
    (hroom : s.bufLen.toNat < 64) : Indistinguishable (padded s) (padded u) := by
  obtain ⟨⟨-, hcause, hbufLen, hlen, ht, -, hinputs, -⟩, hlive⟩ := h
  obtain ⟨hh, hbuf⟩ := hlive.of_absorb hs
  refine ⟨⟨rfl, hcause, rfl, hlen, ht, by rw [padded_fin, padded_fin, hbufLen], hinputs, rfl⟩, hh, fun j hj => ?_⟩
  rw [padded_buf, padded_buf, ← hbufLen, ← hlen, padBlock_read_eq_of_lt hroom s.len hbuf j hj]

/-- A digest read is served in DONE, where `H` is live. -/
theorem Indistinguishable.exec_read {read : Instr} {data : Vector Word 5 → Word} {s u : State}
    (h : Indistinguishable s u) (hread : ReadsDigest read data) :
    IndistinguishableOutcome (exec read s) (exec read u) := by
  rw [hread s, hread u]
  refine h.serveInPhase fun hs => ?_
  rw [h.live.of_done hs]
  exact h.respond false _

theorem Indistinguishable.exec {s u : State} (h : Indistinguishable s u) (i : Instr) :
    IndistinguishableOutcome (exec i s) (exec i u) := by
  have hbufLen := h.control.bufLen
  cases i with
  | nop => exact h.respond false 0
  | init => exact (indistinguishable_beginComputation h.control.inputs h.control.rsp).respond false 0
  | rdstat =>
    have hstatus : status s = status u := by simp only [status, h.control.fsm, h.control.cause, hbufLen]
    rw [exec_rdstat, exec_rdstat, hstatus]
    exact h.respond false _
  | absorb b =>
    refine h.serveInPhase fun hs => ?_
    rw [h.control.len]
    split
    · exact h.raiseFault true _
    · simp only [absorbByte, ← hbufLen]
      split
      case isTrue hroom => exact h.absorbed hs hroom b
      case isFalse => rfl
  | final =>
    refine h.serveInPhase fun hs => ?_
    simp only [finishMessage, ← hbufLen]
    split
    case isTrue hroom => exact h.padded hs hroom
    case isFalse => rfl
  | rdword i => exact h.exec_read (readsDigest_rdword i)
  | rdbyte k => exact h.exec_read (readsDigest_rdbyte k)
  | rdhex j => exact h.exec_read (readsDigest_rdhex j)

theorem Indistinguishable.acceptWord {s u : State} (h : Indistinguishable s u) (cw : CommandWord) :
    IndistinguishableOutcome (acceptWord cw s) (acceptWord cw u) := by
  unfold Machine.acceptWord
  cases decode cw with
  | ok i => exact h.exec i
  | error => exact h.refuseIllegal

/-! ### The internal steps -/

theorem Indistinguishable.loaded {s u : State} (h : Indistinguishable s u) (hs : s.fsm = .load) :
    Indistinguishable (loaded s) (loaded u) := by
  obtain ⟨⟨-, hcause, hbufLen, hlen, -, hfin, hinputs, hrsp⟩, hlive⟩ := h
  obtain ⟨hh, hbuf⟩ := hlive.of_load hs
  refine ⟨⟨rfl, hcause, hbufLen, hlen, rfl, hfin, hinputs, hrsp⟩, hh, congrArg workingOf hh, fun i hi => ?_⟩
  have hi : i < 16 := hi
  rw [loaded_w, loaded_w, scheduleAt_load _ _ _ (by omega), scheduleAt_load _ _ _ (by omega), if_pos hi, if_pos hi,
    readWord_eq_of_read_eq hbuf hi]

theorem Indistinguishable.expanded {s u : State} (h : Indistinguishable s u) (hs : s.fsm = .expand)
    (hlow : 16 ≤ s.t.toNat) (hhigh : s.t.toNat ≤ 79) : Indistinguishable (expanded s) (expanded u) := by
  obtain ⟨⟨hfsm, hcause, hbufLen, hlen, ht, hfin, hinputs, hrsp⟩, hlive⟩ := h
  obtain ⟨hh, hwork, hw⟩ := hlive.of_expand hs
  have hagree : ∀ i < s.t.toNat + 1, scheduleAt (Machine.expanded s).w i = scheduleAt (Machine.expanded u).w i := by
    rw [expanded_w, expanded_w, ← ht]
    exact scheduleAt_expand_eq_of_lt hlow hhigh hw
  refine ⟨⟨?fsm, hcause, hbufLen, hlen, by rw [expanded_t, expanded_t, ht], hfin, hinputs, hrsp⟩, ?live⟩
  case fsm => rw [expanded_fsm, expanded_fsm, hfsm, ht]
  case live =>
    by_cases hlast : s.t.toNat = 79
    · have hround : (Machine.expanded s).fsm = .round := if_pos hlast
      rw [hlast] at hagree
      simp only [LiveDataEq, hround]
      exact ⟨hh, hwork, schedule_ext hagree⟩
    · have hexpand : (Machine.expanded s).fsm = .expand := (if_neg hlast).trans hs
      simp only [LiveDataEq, hexpand, toNat_expanded_t hhigh, if_neg hlast]
      exact ⟨hh, hwork, hagree⟩

theorem Indistinguishable.rounded {s u : State} (h : Indistinguishable s u) (hs : s.fsm = .round) :
    Indistinguishable (rounded s) (rounded u) := by
  obtain ⟨⟨hfsm, hcause, hbufLen, hlen, ht, hfin, hinputs, hrsp⟩, hlive⟩ := h
  obtain ⟨hh, hwork, hw⟩ := hlive.of_round hs
  have hwork' : (Machine.rounded s).work = (Machine.rounded u).work := by
    rw [rounded_work, rounded_work, ht, hwork, hw]
  refine ⟨⟨?fsm, hcause, hbufLen, hlen, by rw [rounded_t, rounded_t, ht], hfin, hinputs, hrsp⟩, ?live⟩
  case fsm => rw [rounded_fsm, rounded_fsm, hfsm, ht]
  case live =>
    by_cases hlast : s.t.toNat = 79
    · have hfold : (Machine.rounded s).fsm = .fold := if_pos hlast
      simp only [LiveDataEq, hfold]
      exact ⟨hh, hwork', hw⟩
    · have hround : (Machine.rounded s).fsm = .round := (if_neg hlast).trans hs
      simp only [LiveDataEq, hround]
      exact ⟨hh, hwork', hw⟩

/-- FOLD writes its control registers by `FIN` alone. -/
theorem SameControl.folded {s u : State} (h : SameControl s u) : SameControl (folded s) (folded u) := by
  obtain ⟨-, hcause, -, hlen, ht, hfin, hinputs, hrsp⟩ := h
  unfold Machine.folded foldContinue
  simp only [← hfin]
  split <;> exact ⟨rfl, hcause, rfl, hlen, ht, rfl, hinputs, hrsp⟩

theorem Indistinguishable.folded {s u : State} (h : Indistinguishable s u) (hs : s.fsm = .fold) :
    Indistinguishable (folded s) (folded u) := by
  obtain ⟨hh, hwork, -⟩ := h.live.of_fold hs
  have hh' : (Machine.folded s).h = (Machine.folded u).h := by rw [folded_h, folded_h, hh, hwork]
  have hfin := h.control.fin
  refine ⟨h.control.folded, ?live⟩
  cases hstage : s.fin with
  | none =>
    simp only [LiveDataEq, folded_none_fsm hstage, folded_none_bufLen hstage]
    exact ⟨hh', fun _ hj => absurd hj (Nat.not_lt_zero _)⟩
  | extra =>
    simp only [LiveDataEq, folded_extra_fsm hstage, folded_extra_buf hstage, folded_extra_buf (hfin ▸ hstage),
      ← h.control.len]
    exact ⟨hh', extraBlock_read_eq s.buf u.buf s.len⟩
  | last =>
    simp only [LiveDataEq, folded_last_fsm hstage]
    exact hh'

theorem Indistinguishable.internalStep {s u : State} (h : Indistinguishable s u) :
    IndistinguishableOutcome (internalStep s) (internalStep u) := by
  have hu {f : Fsm} (hs : s.fsm = f) : u.fsm = f := h.control.fsm.symm.trans hs
  have ht := h.control.t
  have hbufLen := h.control.bufLen
  cases hs : s.fsm with
  | idle | absorb | done | fault =>
    rw [internalStep_ready (by simp [hs]), internalStep_ready (by simp [hu hs])]
    exact h
  | load =>
    by_cases hlen : s.bufLen = 64
    · rw [internalStep_load hs hlen, internalStep_load (hu hs) (hbufLen ▸ hlen)]
      exact h.loaded hs
    · rw [internalStep_loadFault hs hlen, internalStep_loadFault (hu hs) (hbufLen ▸ hlen)]
      exact h.raiseFault false _
  | expand =>
    by_cases hrange : 16 ≤ s.t.toNat ∧ s.t.toNat ≤ 79
    · obtain ⟨hlow, hhigh⟩ := hrange
      rw [internalStep_expand hs hlow hhigh, internalStep_expand (hu hs) (ht ▸ hlow) (ht ▸ hhigh)]
      exact h.expanded hs hlow hhigh
    · have hout : s.t.toNat < 16 ∨ 79 < s.t.toNat := by omega
      rw [internalStep_expand_stop hs hout, internalStep_expand_stop (hu hs) (ht ▸ hout)]
      rfl
  | round =>
    by_cases hhigh : s.t.toNat ≤ 79
    · rw [internalStep_round hs hhigh, internalStep_round (hu hs) (ht ▸ hhigh)]
      exact h.rounded hs
    · have hout : 79 < s.t.toNat := Nat.lt_of_not_le hhigh
      rw [internalStep_round_stop hs hout, internalStep_round_stop (hu hs) (ht ▸ hout)]
      rfl
  | fold =>
    rw [internalStep_fold hs, internalStep_fold (hu hs)]
    exact h.folded hs

/-! ### Steps and runs -/

/-- Settles O48: the two steps are of one kind, chosen by the host's list and control registers, and each kind keeps the two
states indistinguishable. -/
theorem deadDataStaysDead : Obligations.DeadDataStaysDead := by
  intro s u h
  have hfsm := h.control.fsm
  have hin := h.control.inputs
  rcases step_cases s with ⟨rest, hinputs⟩ | ⟨a, cw, rest, hinputs, ha, hready⟩ | ⟨hreset, hsilent⟩
  · rw [step_reset hinputs, step_reset (hin ▸ hinputs)]
    exact (h.beginStep rest).resetStep
  · rw [step_accepts hinputs ha hready, step_accepts (hin ▸ hinputs) ha (hfsm ▸ hready)]
    exact (h.beginStep rest).acceptWord cw
  · have hsilent' : u.fsm.ready = true → offeredWord u = none := by
      rw [← hfsm, offeredWord, ← hin]
      exact hsilent
    rw [step_internal hreset hsilent, step_internal (hin ▸ hreset) hsilent', ← hin]
    exact (h.beginStep _).internalStep

/-- Indistinguishable states answer alike for ever. -/
theorem Indistinguishable.responses_eq {s u : State} (h : Indistinguishable s u) (n : Nat) :
    responses n s = responses n u := by
  induction n generalizing s u with
  | zero => rfl
  | succ n ih =>
    have hstep := deadDataStaysDead s u h
    rw [responses, responses]
    cases hs : step s with
    | next v =>
      cases hu : step u with
      | next w =>
        rw [hs, hu] at hstep
        simp only [hstep.control.rsp, ih hstep]
      | fault | refused => rw [hs, hu] at hstep; exact hstep.elim
    | fault | refused =>
      cases hu : step u with
      | next w => rw [hs, hu] at hstep; exact hstep.elim
      | fault | refused => rfl

/-- Settles O46: in IDLE no data is live. -/
theorem unspecifiedResetValuesAreNeverRead : Obligations.UnspecifiedResetValuesAreNeverRead := by
  intro s u hs hcontrol n
  have hlive : LiveDataEq s u := by simp only [LiveDataEq, hs]
  exact Indistinguishable.responses_eq ⟨hcontrol, hlive⟩ n

theorem step_init {s : State} {a : HostAction} {rest : List HostAction} (hinputs : s.inputs = a :: rest)
    (ha : a.offered = some 0x1000) (hready : s.fsm.ready = true) :
    step s = .next (respond false 0 (beginComputation (beginStep rest s))) :=
  step_accepts hinputs ha hready

/-- Settles O47: after the first step, INIT in both, the states are indistinguishable. -/
theorem computationsAreIndependent : Obligations.ComputationsAreIndependent := by
  intro s u a b rest hs hu hsin huin ha hb n
  cases n with
  | zero => rfl
  | succ n =>
    have h : Indistinguishable (respond false 0 (beginComputation (beginStep rest s)))
        (respond false 0 (beginComputation (beginStep rest u))) :=
      (indistinguishable_beginComputation (s := beginStep rest s) (u := beginStep rest u) rfl rfl).respond false 0
    rw [responses_succ n (step_init hsin ha hs), responses_succ n (step_init huin hb hu), h.control.rsp,
      h.responses_eq n]

end Sys2Proof.Machine
end

section
/-! PROOFS. Runs of the busy core: how many internal steps are left, one Block computation as `compress`, and the Blocks
FINAL starts (44_compressor.md section 5; 46_control_and_pipeline.md section 4; 41_padder.md section 2). -/

namespace Sys2Proof.Machine

/-! ### Runs with their responses -/

/-- The first `n` steps from `s` end in `u` and give the responses `rs`. -/
def RunsTo (n : Nat) (s u : State) (rs : List Response) : Prop :=
  Sys2Proof.core.run n s = .next u ∧ responses n s = rs

theorem RunsTo.refl (s : State) : RunsTo 0 s s [] := ⟨rfl, rfl⟩

theorem RunsTo.of_step {s u : State} (h : step s = .next u) : RunsTo 1 s u u.rsp.toList :=
  ⟨by rw [run_succ 0 h, run_zero], by rw [responses_succ 0 h, responses, List.append_nil]⟩

theorem RunsTo.trans {m n : Nat} {s v u : State} {rs rs' : List Response} (h : RunsTo m s v rs) (h' : RunsTo n v u rs') :
    RunsTo (m + n) s u (rs ++ rs') :=
  ⟨(run_add m n h.1).trans h'.1, by rw [responses_add m n h.1, h.2, h'.2]⟩

/-- An internal step of a busy core that is not reset gives no response. -/
theorem RunsTo.of_busy_step {s u : State} (hreset : s.inputs.head? ≠ some .reset) (hbusy : s.fsm.ready = false)
    (h : internalStep (beginStep (heldInputs s.inputs) s) = .next u) : RunsTo 1 s u [] := by
  have hrun := RunsTo.of_step ((step_busy hreset hbusy).trans h)
  rwa [(internalStep_effect h).rsp_eq] at hrun

theorem reset_not_mem_take_of_le {l : List HostAction} {k n : Nat} (h : HostAction.reset ∉ l.take n) (hk : k ≤ n) :
    HostAction.reset ∉ l.take k :=
  fun hmem => h ((List.take_sublist_take_left hk).subset hmem)

/-! ### How many internal steps are left -/

/-- The internal steps a Block of this stage has behind it: those of the extra Block. -/
def extraSteps : FinStage → Nat
  | .extra => 146
  | .none | .last => 0

/-- The internal steps a busy core still takes when it is not reset: 1 LOAD, 64 EXPAND, 80 ROUND and 1 FOLD per Block
(46_control_and_pipeline.md section 4). -/
def stepsLeft (s : State) : Nat :=
  match s.fsm with
  | .idle | .absorb | .done | .fault => 0
  | .load => 146 + extraSteps s.fin
  | .expand => 161 - s.t.toNat + extraSteps s.fin
  | .round => 81 - s.t.toNat + extraSteps s.fin
  | .fold => 1 + extraSteps s.fin

/-- The core is not in FAULT, and where a Block is in progress its next internal step neither stops nor raises a fault. -/
def OnSchedule (s : State) : Prop :=
  match s.fsm with
  | .idle | .absorb | .done | .fold => True
  | .fault => False
  | .load => s.bufLen = 64
  | .expand => 16 ≤ s.t.toNat ∧ s.t.toNat ≤ 79
  | .round => s.t.toNat ≤ 79

theorem OnSchedule.ne_fault {s : State} (h : OnSchedule s) : s.fsm ≠ .fault := by
  intro hf
  simp only [OnSchedule, hf] at h

theorem Inv.onSchedule {s : State} (hs : Inv s) (hbusy : s.fsm.ready = false) : OnSchedule s := by
  have hc := hs.control
  rcases busy_iff.mp hbusy with h | h | h | h <;> simp only [ControlInv, h] at hc <;> simp only [OnSchedule, h]
  · exact hc.2.2
  · exact ⟨hc.2.1, hc.2.2.1⟩
  · exact hc.2.1

/-- The core is ready exactly when no internal step is left. -/
theorem OnSchedule.ready_iff_stepsLeft {s : State} (h : OnSchedule s) : s.fsm.ready = true ↔ stepsLeft s = 0 := by
  cases hf : s.fsm with
  | idle | absorb | done | fault | load | fold => simp [stepsLeft, hf]
  | expand | round =>
    simp only [OnSchedule, hf] at h
    refine iff_of_false (by simp) ?_
    simp only [stepsLeft, hf]
    omega

theorem expanded_onSchedule {s : State} (hf : s.fsm = .expand) (hlow : 16 ≤ s.t.toNat) (hhigh : s.t.toNat ≤ 79) :
    OnSchedule (expanded s) ∧ stepsLeft (expanded s) + 1 = stepsLeft s := by
  have hcount := toNat_expanded_t hhigh
  by_cases hlast : s.t.toNat = 79
  · have hfsm : (expanded s).fsm = .round := if_pos hlast
    rw [if_pos hlast] at hcount
    simp only [OnSchedule, stepsLeft, hfsm, hf, hcount, expanded_fin]
    omega
  · have hfsm : (expanded s).fsm = .expand := (if_neg hlast).trans hf
    rw [if_neg hlast] at hcount
    simp only [OnSchedule, stepsLeft, hfsm, hf, hcount, expanded_fin]
    omega

theorem rounded_onSchedule {s : State} (hf : s.fsm = .round) (hhigh : s.t.toNat ≤ 79) :
    OnSchedule (rounded s) ∧ stepsLeft (rounded s) + 1 = stepsLeft s := by
  have hcount := toNat_rounded_t hhigh
  by_cases hlast : s.t.toNat = 79
  · have hfsm : (rounded s).fsm = .fold := if_pos hlast
    simp only [OnSchedule, stepsLeft, hfsm, hf, hlast, rounded_fin, true_and]
    omega
  · have hfsm : (rounded s).fsm = .round := (if_neg hlast).trans hf
    rw [if_neg hlast] at hcount
    simp only [OnSchedule, stepsLeft, hfsm, hf, hcount, rounded_fin]
    omega

theorem folded_onSchedule {s : State} (hf : s.fsm = .fold) :
    OnSchedule (folded s) ∧ stepsLeft (folded s) + 1 = stepsLeft s := by
  cases hfin : s.fin with
  | none => simp [OnSchedule, stepsLeft, extraSteps, folded_none_fsm hfin, hf, hfin]
  | extra =>
    simp [OnSchedule, stepsLeft, extraSteps, folded_extra_fsm hfin, folded_extra_bufLen hfin, folded_extra_fin hfin, hf,
      hfin]
  | last => simp [OnSchedule, stepsLeft, extraSteps, folded_last_fsm hfin, hf, hfin]

/-- An internal step is one step less to take. -/
theorem OnSchedule.internalStep {s : State} (h : OnSchedule s) (hbusy : s.fsm.ready = false) :
    ∃ u, internalStep s = .next u ∧ OnSchedule u ∧ stepsLeft u + 1 = stepsLeft s := by
  rcases busy_iff.mp hbusy with hf | hf | hf | hf <;> simp only [OnSchedule, hf] at h
  · refine ⟨_, internalStep_load hf h, ⟨by simp, by simp⟩, ?_⟩
    simp only [stepsLeft, hf, loaded_fsm, loaded_t, loaded_fin, BitVec.reduceToNat]
    omega
  · exact ⟨_, internalStep_expand hf h.1 h.2, expanded_onSchedule hf h.1 h.2⟩
  · exact ⟨_, internalStep_round hf h, rounded_onSchedule hf h⟩
  · exact ⟨_, internalStep_fold hf, folded_onSchedule hf⟩

/-- As long as steps are left and no reset comes, the core takes them and gives no response. -/
theorem OnSchedule.run {s : State} (h : OnSchedule s) {k : Nat} (hk : k ≤ stepsLeft s)
    (hreset : HostAction.reset ∉ s.inputs.take k) :
    ∃ u, RunsTo k s u [] ∧ OnSchedule u ∧ stepsLeft u + k = stepsLeft s := by
  induction k generalizing s with
  | zero => exact ⟨s, .refl s, h, rfl⟩
  | succ k ih =>
    have hbusy : s.fsm.ready = false := Bool.eq_false_iff.mpr fun hready => by
      have := h.ready_iff_stepsLeft.mp hready
      omega
    have hhead : s.inputs.head? ≠ some .reset := heldInputs_head 0 (k + 1) s.inputs hreset (Nat.succ_pos k)
    obtain ⟨v, hstep, hv, hleft⟩ := OnSchedule.internalStep (s := beginStep (heldInputs s.inputs) s) h hbusy
    have hreset' : HostAction.reset ∉ v.inputs.take k := by
      rw [(internalStep_effect hstep).inputs_eq]
      exact heldInputs_take 1 k s.inputs (Nat.add_comm 1 k ▸ hreset)
    have hleft : stepsLeft v + 1 = stepsLeft s := hleft
    obtain ⟨u, hrun, hu, hleft'⟩ := ih hv (by omega) hreset'
    exact ⟨u, Nat.add_comm 1 k ▸ (RunsTo.of_busy_step hhead hbusy hstep).trans hrun, hu, by omega⟩

theorem OnSchedule.stepsLeft_le {s : State} (h : OnSchedule s) : stepsLeft s ≤ 292 := by
  have hextra : extraSteps s.fin ≤ 146 := by cases s.fin <;> decide
  cases hf : s.fsm with
  | idle | absorb | done | fault => simp [stepsLeft, hf]
  | load | round | fold => simp only [stepsLeft, hf]; omega
  | expand =>
    simp only [OnSchedule, hf] at h
    simp only [stepsLeft, hf]
    omega

/-- Settles O43: after the steps left, at most 292, none is left, and the core is ready. -/
theorem busyEpisodeEndsWithin292Steps : Obligations.BusyEpisodeEndsWithin292Steps := by
  intro s hs hbusy hreset
  have hsched := hs.onSchedule hbusy
  have hle := hsched.stepsLeft_le
  obtain ⟨u, ⟨hrun, -⟩, hu, hleft⟩ := hsched.run le_rfl (reset_not_mem_take_of_le hreset hle)
  exact ⟨stepsLeft s, hle, u, hrun, hu.ready_iff_stepsLeft.mpr (by omega), hu.ne_fault⟩

/-! ### One Block computation -/

/-- What one Block computation leaves: the Block folded into `H`, and what follows by `FIN` (44_compressor.md R119, R120). -/
structure ComputesBlock (s u : State) : Prop where
  h : u.h = compress s.h (expandBlock s.buf.blockWords)
  len : u.len = s.len
  cause : u.cause = s.cause
  t : u.t = 0
  inputs : u.inputs = heldInputs^[146] s.inputs
  of_none : s.fin = .none → u.fsm = .absorb ∧ u.bufLen = 0 ∧ u.fin = .none
  of_last : s.fin = .last → u.fsm = .done ∧ u.bufLen = 0 ∧ u.fin = .none
  of_extra : s.fin = .extra → u.fsm = .load ∧ u.bufLen = 64 ∧ u.fin = .last ∧ u.buf = extraBlock s.buf s.len

theorem length_blockWords (m : Memory) : m.blockWords.length = 16 := by
  rw [Memory.blockWords, List.length_map, List.length_range]

theorem KeepsBlock.trans {j k : Nat} {s v u : State} (h : KeepsBlock j s v) (h' : KeepsBlock k v u) :
    KeepsBlock (k + j) s u :=
  ⟨h'.h.trans h.h, h'.buf.trans h.buf, h'.bufLen.trans h.bufLen, h'.len.trans h.len, h'.fin.trans h.fin,
    h'.cause.trans h.cause, by rw [h'.inputs, h.inputs, Function.iterate_add_apply], h'.draws.trans h.draws⟩

theorem run_load {s : State} (hload : s.fsm = .load) (hbufLen : s.bufLen = 64) (hreset : s.inputs.head? ≠ some .reset) :
    ∃ l, RunsTo 1 s l [] ∧ KeepsBlock 1 s l ∧ l.fsm = .expand ∧ l.t.toNat = 16 ∧ l.work = workingOf s.h ∧
      HoldsSchedule l.w s.buf.blockWords 16 :=
  ⟨loaded (beginStep (heldInputs s.inputs) s),
    .of_busy_step hreset (by simp [hload]) (internalStep_load hload hbufLen),
    ⟨rfl, rfl, rfl, rfl, rfl, rfl, rfl, rfl⟩, rfl, rfl, rfl, holdsSchedule_load s.buf s.w⟩

/-- LOAD splits the Block, and the 64 EXPAND and 80 ROUND steps behind it run its Schedule to FOLD. -/
theorem run_to_fold {s : State} (hload : s.fsm = .load) (hbufLen : s.bufLen = 64)
    (hreset : HostAction.reset ∉ s.inputs.take 145) :
    ∃ u, RunsTo 145 s u [] ∧ KeepsBlock 145 s u ∧ u.fsm = .fold ∧ u.t = 0 ∧
      u.work = runRounds (workingOf s.h) (expandBlock s.buf.blockWords) 80 := by
  obtain ⟨l, hlrun, hl, hlfsm, hlt, hlwork, hlw⟩ := run_load hload hbufLen (heldInputs_head 0 145 _ hreset (by decide))
  have hlreset : HostAction.reset ∉ l.inputs.take 64 := by
    rw [hl.inputs]
    exact heldInputs_take 1 64 s.inputs (reset_not_mem_take_of_le hreset (by decide))
  obtain ⟨v, hvrun, hvrsp, hv, hvwork, hvw, -, hvend⟩ :=
    expand_phase (length_blockWords s.buf) hlfsm hlt hlw hlreset 64 le_rfl
  obtain ⟨hvfsm, hvt⟩ := hvend rfl
  have hvkeeps : KeepsBlock 65 s v := hl.trans hv
  have hvreset : HostAction.reset ∉ v.inputs.take 80 := by
    rw [hvkeeps.inputs]
    exact heldInputs_take 65 80 s.inputs hreset
  obtain ⟨u, hurun, hursp, hu, -, huwork, -, huend⟩ := round_phase hvfsm hvt hvw hvreset 80 le_rfl
  obtain ⟨hufsm, hut⟩ := huend rfl
  exact ⟨u, (hlrun.trans ⟨hvrun, hvrsp⟩).trans ⟨hurun, hursp⟩, hvkeeps.trans hu, hufsm, hut,
    by rw [huwork, hvwork, hlwork]⟩

/-- The FOLD step folds the state in which only the ports have moved on. -/
theorem run_fold {s : State} (hfold : s.fsm = .fold) (hreset : s.inputs.head? ≠ some .reset) :
    ∃ w, RunsTo 1 s (folded w) [] ∧ KeepsBlock 1 s w ∧ w.work = s.work ∧ w.t = s.t :=
  ⟨beginStep (heldInputs s.inputs) s, .of_busy_step hreset (by simp [hfold]) (internalStep_fold hfold),
    ⟨rfl, rfl, rfl, rfl, rfl, rfl, rfl, rfl⟩, rfl, rfl⟩

/-- One Block computation, 146 internal steps. -/
theorem run_block {s : State} (hload : s.fsm = .load) (hbufLen : s.bufLen = 64)
    (hreset : HostAction.reset ∉ s.inputs.take 146) : ∃ u, RunsTo 146 s u [] ∧ ComputesBlock s u := by
  obtain ⟨v, hvrun, hv, hvfsm, hvt, hvwork⟩ :=
    run_to_fold hload hbufLen (reset_not_mem_take_of_le hreset (by decide))
  obtain ⟨w, hwrun, hw, hwwork, hwt⟩ :=
    run_fold hvfsm (by rw [hv.inputs]; exact heldInputs_head 145 146 _ hreset (by decide))
  have hkeeps : KeepsBlock 146 s w := hv.trans hw
  refine ⟨folded w, hvrun.trans hwrun, ?h, (folded_len w).trans hkeeps.len, (folded_cause w).trans hkeeps.cause,
    (folded_t w).trans (hwt.trans hvt), (folded_inputs w).trans hkeeps.inputs, fun h => ?none, fun h => ?last,
    fun h => ?extra⟩
  case h => rw [folded_h, hkeeps.h, hwwork, hvwork]; rfl
  case none =>
    have h := hkeeps.fin.trans h
    exact ⟨folded_none_fsm h, folded_none_bufLen h, folded_none_fin h⟩
  case last =>
    have h := hkeeps.fin.trans h
    exact ⟨folded_last_fsm h, folded_last_bufLen h, folded_last_fin h⟩
  case extra =>
    have h := hkeeps.fin.trans h
    exact ⟨folded_extra_fsm h, folded_extra_bufLen h, folded_extra_fin h,
      by rw [folded_extra_buf h, hkeeps.buf, hkeeps.len]⟩

/-- Settles O42: the core is busy as long as steps are left (`OnSchedule.run`), and what the 146 steps leave is
`run_block`. -/
theorem blockComputationIsCompress : Obligations.BlockComputationIsCompress := by
  intro s hload hlen hreset
  have hbufLen : s.bufLen = 64 := BitVec.eq_of_toNat_eq hlen
  have hsched : OnSchedule s := by simpa only [OnSchedule, hload] using hbufLen
  have hleft : stepsLeft s = 146 + extraSteps s.fin := by simp only [stepsLeft, hload]
  obtain ⟨u, ⟨hrun, hrsp⟩, hu⟩ := run_block hload hbufLen hreset
  refine ⟨fun k hk => ?busy, hrsp, u, hrun, hu.h, hu.len, hu.cause, hu.t, hu.of_none, hu.of_last, fun h => ?extra⟩
  case busy =>
    obtain ⟨v, ⟨hvrun, -⟩, hv, hvleft⟩ := hsched.run (k := k) (by omega)
      (reset_not_mem_take_of_le hreset hk.le)
    refine ⟨v, hvrun, Bool.eq_false_iff.mpr fun hready => ?_⟩
    have := hv.ready_iff_stepsLeft.mp hready
    omega
  case extra =>
    obtain ⟨hfsm, hbufLen, hfin, -⟩ := hu.of_extra h
    exact ⟨hfsm, hbufLen, hfin⟩

/-! ### The Blocks FINAL starts -/

@[simp] theorem heldInputs_offers (p : List Instr) : heldInputs (offers p) = offers p := by cases p <;> rfl

theorem reset_not_mem_offers (p : List Instr) : HostAction.reset ∉ offers p := by simp [offers]

/-- A Block computation behind which the host holds command words leaves them as they are. -/
theorem run_block_of_offers {s : State} (hload : s.fsm = .load) (hbufLen : s.bufLen = 64) {p : List Instr}
    (hinputs : s.inputs = offers p) : ∃ u, RunsTo 146 s u [] ∧ ComputesBlock s u ∧ u.inputs = offers p := by
  obtain ⟨u, hrun, hu⟩ := run_block hload hbufLen fun hmem =>
    reset_not_mem_offers p (hinputs ▸ List.mem_of_mem_take hmem)
  exact ⟨u, hrun, hu, by rw [hu.inputs, hinputs, Function.iterate_fixed (heldInputs_offers p)]⟩

/-- A ready core runs the first of the commands the host holds. -/
theorem step_offers {s : State} {i : Instr} {p : List Instr} (hinputs : s.inputs = offers (i :: p))
    (hready : s.fsm.ready = true) (hwf : i.wellFormed = true) : step s = exec i (beginStep (offers p) s) :=
  stepRunsTheDecodedCommand s _ _ (offers p) i hready hinputs rfl (decodeOfEncodeIsTheCommand i hwf)

/-- `H` after FINAL: the padded Block folded in and, with no room for the length in it, the extra Block
(41_padder.md R91, 44_compressor.md R120). -/
def finalH (s : State) : Vector Word 5 :=
  let p := padBlock s.buf s.bufLen.toNat s.len
  if s.bufLen.toNat ≤ 55 then compress s.h (expandBlock p.blockWords)
  else compress (compress s.h (expandBlock p.blockWords)) (expandBlock (extraBlock p s.len).blockWords)

/-- The Blocks FINAL starts, and their internal steps (41_padder.md section 2). -/
theorem run_final {s : State} (habsorb : s.fsm = .absorb) (hroom : s.bufLen.toNat ≤ 63)
    (hinputs : s.inputs = offers [.final]) :
    ∃ u, RunsTo (1 + if s.bufLen.toNat ≤ 55 then 146 else 292) s u [⟨false, 0⟩] ∧ u.fsm = .done ∧ u.fin = .none ∧
      u.bufLen = 0 ∧ u.t = 0 ∧ u.len = s.len ∧ u.h = finalH s ∧ u.inputs = [] := by
  have hstep : step s = .next (padded (beginStep (offers []) s)) := by
    rw [step_offers hinputs (by simp [habsorb]) rfl]
    exact execFinal_served habsorb (Nat.lt_succ_of_le hroom)
  obtain ⟨v, hvrun, hv, hvinputs⟩ :=
    run_block_of_offers (s := padded (beginStep (offers []) s)) (p := []) rfl rfl rfl
  by_cases hfits : s.bufLen.toNat ≤ 55
  · obtain ⟨hfsm, hbufLen, hfin⟩ := hv.of_last (if_pos hfits)
    simp only [finalH, if_pos hfits]
    exact ⟨v, (RunsTo.of_step hstep).trans hvrun, hfsm, hfin, hbufLen, hv.t, hv.len, hv.h, hvinputs⟩
  · obtain ⟨hvfsm, hvbufLen, hvfin, hvbuf⟩ := hv.of_extra (if_neg hfits)
    obtain ⟨u, hurun, hu, huinputs⟩ := run_block_of_offers hvfsm hvbufLen hvinputs
    obtain ⟨hfsm, hbufLen, hfin⟩ := hu.of_last hvfin
    have hblocks := hvrun.trans hurun
    simp only [finalH, if_neg hfits]
    exact ⟨u, (RunsTo.of_step hstep).trans hblocks, hfsm, hfin, hbufLen, hu.t, hu.len.trans hv.len,
      by simp only [hu.h, hvbuf, hv.h, padded_h, padded_buf, padded_len, beginStep_h, beginStep_buf, beginStep_bufLen,
        beginStep_len], huinputs⟩

/-- Settles O45: the run is `run_final`. -/
theorem finalRunsItsBlocksToDone : Obligations.FinalRunsItsBlocksToDone := by
  intro s habsorb hroom hinputs
  obtain ⟨u, ⟨hrun, hrsp⟩, hfsm, hfin, hbufLen, ht, hlen, hh, -⟩ := run_final habsorb hroom hinputs
  exact ⟨u, hrun, hrsp, hfsm, hfin, hbufLen, ht, hlen, hh⟩

end Sys2Proof.Machine
end

section
/-! PROOFS. Padding and splitting on whole bytes, and the three views of the Digest (41_padder.md section 1;
42_block_splitter.md R96, R97; 45_digest_assembler.md section 2). -/

namespace Sys2Proof.Machine

/-! ### The Bitstream of parts of a Message -/

theorem bitEncode_append (m m' : List Byte) : bitEncode (m ++ m') = bitEncode m ++ bitEncode m' := List.flatMap_append

theorem bitEncode_replicate_zero (z : Nat) : bitEncode (List.replicate z 0) = List.replicate (8 * z) false := by
  induction z with
  | zero => rfl
  | succ z ih =>
    have hzero : byteBits 0 = List.replicate 8 false := by decide
    rw [List.replicate_succ, bitEncode_cons, ih, hzero, List.replicate_append_replicate, Nat.mul_succ, Nat.add_comm]

theorem drop_bitEncode (m : List Byte) (k : Nat) : (bitEncode m).drop (8 * k) = bitEncode (m.drop k) := by
  induction m generalizing k with
  | nil => simp
  | cons b m ih =>
    cases k with
    | zero => rfl
    | succ k =>
      rw [bitEncode_cons, List.drop_succ_cons, ← ih k, Nat.mul_succ, Nat.add_comm, ← List.drop_drop,
        List.drop_left' (length_byteBits b)]

theorem take_bitEncode (m : List Byte) (k : Nat) : (bitEncode m).take (8 * k) = bitEncode (m.take k) := by
  induction m generalizing k with
  | nil => simp
  | cons b m ih =>
    cases k with
    | zero => rfl
    | succ k =>
      rw [bitEncode_cons, List.take_succ_cons, bitEncode_cons, ← ih k, Nat.mul_succ, Nat.add_comm,
        List.take_append, length_byteBits, Nat.add_sub_cancel_left,
        List.take_of_length_le (by rw [length_byteBits]; exact Nat.le_add_right 8 _)]

/-! ### The byte form of padding -/

/-- The length field is the Bitstream of the big-endian image of the length: both are bits 63 to 0. -/
theorem len64_eq_bitEncode (n : Nat) : len64 n = bitEncode (be64bytes (BitVec.ofNat 64 n)) := by
  refine List.ext_getElem? fun i => ?_
  by_cases hi : i < 64
  · have hbyte : i / 8 < (be64bytes (BitVec.ofNat 64 n)).length := by rw [length_be64bytes]; omega
    have hsplit : 8 * (i / 8) + i % 8 = i := Nat.div_add_mod i 8
    have hright := getElem?_bitEncode (be64bytes (BitVec.ofNat 64 n)) hbyte (Nat.mod_lt i (by decide))
    rw [hsplit] at hright
    have hbit : 56 - 8 * (i / 8) + (7 - i % 8) = 63 - i := by omega
    have hin : 7 - i % 8 < 8 ∧ 63 - i < 64 := by omega
    have himage : (be64bytes (BitVec.ofNat 64 n))[i / 8] = be64byte (BitVec.ofNat 64 n) (i / 8) := by simp [be64bytes]
    rw [hright, himage, len64, List.getElem?_map, List.getElem?_range hi, Option.map_some, be64byte,
      BitVec.getLsbD_extractLsb', hbit, BitVec.getLsbD_ofNat, decide_eq_true hin.1, decide_eq_true hin.2, Bool.true_and,
      Bool.true_and]
  · rw [List.getElem?_eq_none (by rw [length_len64]; omega),
      List.getElem?_eq_none (by rw [length_bitEncode, length_be64bytes]; omega)]

/-- The zero bytes between `0x80` and the length (41_padder.md section 1). -/
def padZeroBytes (n : Nat) : Nat := if n % 64 ≤ 55 then 55 - n % 64 else 119 - n % 64

/-- The padded Message in bytes. -/
def paddedBytes (m : List Byte) : List Byte :=
  m ++ [0x80] ++ List.replicate (padZeroBytes m.length) 0x00 ++ be64bytes (BitVec.ofNat 64 (8 * m.length))

/-- Seven of the zero bits stand in the byte `0x80`. -/
theorem padZeros_eq (n : Nat) : padZeros (8 * n) = 7 + 8 * padZeroBytes n := by
  have hk := natCast_padZeros (8 * n)
  unfold padZeroBytes
  split <;> omega

theorem padBits_bitEncode {m : List Byte} (h : 8 * m.length < 2 ^ 64) :
    padBits (bitEncode m) = .ok (bitEncode (paddedBytes m)) := by
  have hmark : bitEncode [0x80] = [true] ++ List.replicate 7 false := by decide
  rw [padBits_of_length_lt (by rwa [length_bitEncode]), length_bitEncode, padZeros_eq, len64_eq_bitEncode]
  simp only [paddedBytes, bitEncode_append, bitEncode_replicate_zero, hmark, ← List.replicate_append_replicate,
    List.append_assoc]

theorem padZeroBytes_fills_blocks (n : Nat) : n + 1 + padZeroBytes n + 8 = 64 * blockCount n := by
  unfold padZeroBytes blockCount
  split <;> omega

/-- Settles O51: the bits by `padBits_bitEncode`, the length by `padZeroBytes_fills_blocks`. -/
theorem padInBytes : Obligations.PadInBytes :=
  fun m h => ⟨padBits_bitEncode h, padZeroBytes_fills_blocks m.length⟩

/-! ### The value of a bit slice -/

/-- Bit `r` of the slice stands `r` places below the top. -/
theorem testBit_bitsValue (bits : List Bool) {r : Nat} (hr : r < bits.length) :
    (bitsValue bits).testBit (bits.length - 1 - r) = bits.getD r false := by
  induction bits using List.reverseRecOn with
  | nil => exact absurd hr (Nat.not_lt_zero r)
  | append_singleton bits b ih =>
    have hcons : bitsValue (bits ++ [b]) = Nat.bit b (bitsValue bits) := by
      rw [bitsValue_append_singleton, Nat.bit_val]
    rw [List.length_append, List.length_singleton] at hr
    rw [hcons, List.length_append, List.length_singleton, Nat.add_sub_cancel]
    by_cases hlast : r = bits.length
    · rw [hlast, Nat.sub_self, Nat.testBit_bit_zero, List.getD_append_right _ _ _ _ le_rfl, Nat.sub_self]
      rfl
    · have hr : r < bits.length := by omega
      have hexp : bits.length - r = bits.length - 1 - r + 1 := by omega
      rw [hexp, Nat.testBit_bit_succ, ih hr, List.getD_append _ _ _ _ hr]

theorem bitsValue_append (bits bits' : List Bool) :
    bitsValue (bits ++ bits') = bitsValue bits * 2 ^ bits'.length + bitsValue bits' := by
  induction bits' using List.reverseRecOn with
  | nil => simp [bitsValue]
  | append_singleton bits' b ih =>
    rw [← List.append_assoc, bitsValue_append_singleton, bitsValue_append_singleton, ih, List.length_append,
      List.length_singleton, Nat.pow_succ]
    ring

theorem bitsValue_byteBits (b : Byte) : bitsValue (byteBits b) = b.toNat :=
  (bitsValue_map_testBit b.toNat 8).trans (Nat.mod_eq_of_lt b.isLt)

theorem bitsValue_bitEncode_four (b0 b1 b2 b3 : Byte) :
    bitsValue (bitEncode [b0, b1, b2, b3]) = (be32 b0 b1 b2 b3).toNat := by
  simp only [bitEncode_cons, bitEncode_nil, List.append_nil, bitsValue_append, bitsValue_byteBits, List.length_append,
    length_byteBits, toNat_be32]
  ring

/-! ### The Words of a stream -/

/-- Bit `31 - r` of Word `i` of Block `j` is stream bit `512 j + 32 i + r` (42_block_splitter.md R97). -/
theorem getLsbD_streamWord {p : List Bool} {j i r : Nat} (hend : 512 * j + 32 * i + 32 ≤ p.length) (hr : r < 32) :
    (streamWord p j i).getLsbD (31 - r) = p.getD (512 * j + 32 * i + r) false := by
  have hlen : ((p.drop (512 * j + 32 * i)).take 32).length = 32 := by
    rw [List.length_take, List.length_drop]
    omega
  have hbit := testBit_bitsValue _ (hlen.symm ▸ hr)
  rw [hlen] at hbit
  rw [streamWord, BitVec.getLsbD_ofNat, decide_eq_true (show 31 - r < 32 by omega), Bool.true_and, hbit]
  simp [List.getD_eq_getElem?_getD, List.getElem?_drop, hr]

/-- Word `i` of Block `j` of a byte string (42_block_splitter.md R97, 00_scope.md R15). -/
def byteWord (bytes : List Byte) (j i : Nat) : Word :=
  be32 (bytes.getD (64 * j + 4 * i) 0) (bytes.getD (64 * j + 4 * i + 1) 0) (bytes.getD (64 * j + 4 * i + 2) 0)
    (bytes.getD (64 * j + 4 * i + 3) 0)

/-- Block `j` of a byte string, as its sixteen Words. -/
def byteBlock (bytes : List Byte) (j : Nat) : List Word := (List.range 16).map fun i => byteWord bytes j i

theorem take_four_drop {bytes : List Byte} {k : Nat} (h : k + 4 ≤ bytes.length) :
    (bytes.drop k).take 4 = [bytes.getD k 0, bytes.getD (k + 1) 0, bytes.getD (k + 2) 0, bytes.getD (k + 3) 0] := by
  rw [List.drop_eq_getElem_cons (by omega), List.drop_eq_getElem_cons (by omega), List.drop_eq_getElem_cons (by omega),
    List.drop_eq_getElem_cons (by omega), List.getD_eq_getElem _ _ (by omega), List.getD_eq_getElem _ _ (by omega),
    List.getD_eq_getElem _ _ (by omega), List.getD_eq_getElem _ _ (by omega)]
  rfl

/-- The 32 bits of a Word of the stream are those of four consecutive bytes. -/
theorem streamWord_bitEncode {bytes : List Byte} {j i : Nat} (hend : 64 * j + 4 * i + 4 ≤ bytes.length) :
    streamWord (bitEncode bytes) j i = byteWord bytes j i := by
  have hstart : 512 * j + 32 * i = 8 * (64 * j + 4 * i) := by omega
  have hslice : (bitEncode (bytes.drop (64 * j + 4 * i))).take 32 = bitEncode ((bytes.drop (64 * j + 4 * i)).take 4) :=
    take_bitEncode _ 4
  rw [streamWord, hstart, drop_bitEncode, hslice, take_four_drop hend, bitsValue_bitEncode_four,
    byteWord, BitVec.ofNat_toNat, BitVec.setWidth_eq]

theorem splitBlocks_eq_error {p : List Bool} (h : p.length = 0 ∨ p.length % 512 ≠ 0) :
    splitBlocks p = .error .internalInvariantViolation := if_pos h

theorem whole_blocks_of_splitBlocks_eq_ok {p : List Bool} {bs : List (List Word)} (h : splitBlocks p = .ok bs) :
    0 < p.length ∧ p.length % 512 = 0 ∧
      bs = (List.range (p.length / 512)).map fun j => (List.range 16).map fun i => streamWord p j i := by
  unfold splitBlocks at h
  split at h
  case isTrue => cases h
  case isFalse hlen =>
    cases h
    exact ⟨by omega, by omega, rfl⟩

theorem splitBlocks_bitEncode {bytes : List Byte} {n : Nat} (h : bytes.length = 64 * (n + 1)) :
    splitBlocks (bitEncode bytes) = .ok ((List.range (n + 1)).map (byteBlock bytes)) := by
  have hlen : (bitEncode bytes).length = 512 * (n + 1) := by rw [length_bitEncode, h]; omega
  rw [splitBlocks_of_whole_blocks (by omega) (by omega), hlen, Nat.mul_div_cancel_left _ (by decide)]
  refine congrArg Except.ok (List.map_congr_left fun j hj => List.map_congr_left fun i hi => ?_)
  rw [List.mem_range] at hj hi
  exact streamWord_bitEncode (by omega)

theorem getD_map_range {α : Type} (f : Nat → α) {n i : Nat} (hi : i < n) (d : α) :
    ((List.range n).map f).getD i d = f i := by
  rw [List.getD_eq_getElem?_getD, List.getElem?_map, List.getElem?_range hi, Option.map_some, Option.getD_some]

/-- Settles O52: the domain by the length check alone, the bits by `getLsbD_streamWord`, the bytes by
`splitBlocks_bitEncode`. -/
theorem splitGivesBigEndianWords : Obligations.SplitGivesBigEndianWords := by
  refine ⟨fun p => ⟨fun ⟨bs, h⟩ => ?domain, fun ⟨hpos, hwhole⟩ => ⟨_, splitBlocks_of_whole_blocks hpos hwhole⟩⟩,
    fun p => splitBlocks_eq_error, fun p bs h => ?words, fun bytes n => splitBlocks_bitEncode⟩
  case domain =>
    obtain ⟨hpos, hwhole, -⟩ := whole_blocks_of_splitBlocks_eq_ok h
    exact ⟨hpos, hwhole⟩
  case words =>
    obtain ⟨-, hwhole, rfl⟩ := whole_blocks_of_splitBlocks_eq_ok h
    rw [List.length_map, List.length_range]
    refine ⟨by omega, ?sixteen, fun j i r hj hi hr => ?bit⟩
    case sixteen =>
      rw [List.forall_mem_map]
      intro j _
      rw [List.length_map, List.length_range]
    case bit =>
      rw [getD_map_range _ hj, getD_map_range _ hi]
      exact getLsbD_streamWord (by omega) hr

/-! ### The views of the Digest -/

theorem digestByte_of_word (h : Vector Word 5) {i r : Nat} (hr : r ≤ 3) :
    digestByte h (4 * i + r) = (digestWord h i).extractLsb' (24 - 8 * r) 8 := by
  have hdiv : (4 * i + r) / 4 = i := by omega
  have hmod : (4 * i + r) % 4 = r := by omega
  rw [digestByte, hdiv, hmod]

/-- A byte holds its two nibbles, the first one on top. -/
theorem digestNibble_of_byte (h : Vector Word 5) (k : Nat) {q : Nat} (hq : q ≤ 1) :
    digestNibble h (2 * k + q) = (digestByte h k).extractLsb' (4 - 4 * q) 4 := by
  have hdiv : (2 * k + q) / 8 = k / 4 := by omega
  have hpos : 24 - 8 * (k % 4) + (4 - 4 * q) = 28 - 4 * ((2 * k + q) % 8) := by omega
  rw [digestNibble, digestByte, extractLsb'_extractLsb'_add _ (by omega), hdiv, hpos]

/-- Settles O56: each byte by its place in its Word, each character by the nibble of its byte. -/
theorem digestViewsAgree : Obligations.DigestViewsAgree := by
  intro h
  refine ⟨fun i _ r hr => ?bytes, fun k _ => ⟨?high, ?low⟩⟩
  case bytes => rw [digestByte_of_word h hr, BitVec.extractLsb'_toNat, Nat.shiftRight_eq_div_pow]
  case high => rw [digestHex, ← Nat.add_zero (2 * k), digestNibble_of_byte h k (Nat.zero_le 1)]
  case low => rw [digestHex, digestNibble_of_byte h k le_rfl]

end Sys2Proof.Machine
end

section
/-! PROOFS. The command sequence of a message computes its hash: how far a run has absorbed the padded message, byte by byte
(46_control_and_pipeline.md sections 3 to 5). -/

namespace Sys2Proof.Machine

/-! ### The padded Message, byte by byte -/

theorem length_paddedBytes (m : List Byte) : (paddedBytes m).length = 64 * blockCount m.length := by
  rw [← padZeroBytes_fills_blocks]
  simp only [paddedBytes, List.length_append, List.length_singleton, List.length_replicate, length_be64bytes]

theorem isPrefix_paddedBytes (m : List Byte) : m <+: paddedBytes m :=
  ⟨[0x80] ++ List.replicate (padZeroBytes m.length) 0x00 ++ be64bytes (BitVec.ofNat 64 (8 * m.length)),
    by simp only [paddedBytes, List.append_assoc]⟩

theorem getD_paddedBytes_mark (m : List Byte) : (paddedBytes m).getD m.length 0 = 0x80 := by
  simp [paddedBytes, List.getD_eq_getElem?_getD]

theorem getD_paddedBytes_zero (m : List Byte) {i : Nat} (hlow : m.length < i)
    (hhigh : i < m.length + 1 + padZeroBytes m.length) : (paddedBytes m).getD i 0 = 0x00 := by
  have hzeros : i - (m ++ [0x80]).length < padZeroBytes m.length := by
    rw [List.length_append, List.length_singleton]
    omega
  rw [paddedBytes, List.getD_append _ _ _ _ (by simp; omega), List.getD_append_right _ _ _ _ (by simp; omega),
    List.getD_replicate _ hzeros]

theorem getD_paddedBytes_length (m : List Byte) {r : Nat} (hr : r < 8) :
    (paddedBytes m).getD (m.length + 1 + padZeroBytes m.length + r) 0 =
      be64byte (BitVec.ofNat 64 (8 * m.length)) r := by
  have hstart : (m ++ [0x80] ++ List.replicate (padZeroBytes m.length) 0x00).length =
      m.length + 1 + padZeroBytes m.length := by
    simp only [List.length_append, List.length_singleton, List.length_replicate]
  rw [paddedBytes, List.getD_append_right _ _ _ _ (by omega), hstart, Nat.add_sub_cancel_left, be64bytes,
    getD_map_range _ hr]

/-! ### The Blocks of a byte string, folded in turn -/

/-- The State after the first `k` Blocks of a byte string (46_control_and_pipeline.md R132). -/
def chained (bytes : List Byte) (k : Nat) : Vector Word 5 :=
  foldBlocks initialState ((List.range k).map (byteBlock bytes))

theorem chained_succ (bytes : List Byte) (k : Nat) :
    chained bytes (k + 1) = compress (chained bytes k) (expandBlock (byteBlock bytes k)) := by
  simp only [chained, foldBlocks, List.range_succ, List.map_append, List.map_singleton, List.foldl_append,
    List.foldl_cons, List.foldl_nil]

theorem hashMessage_eq_chained {m : List Byte} (h : 8 * m.length < 2 ^ 64) :
    hashMessage m = .ok (assembleDigest (chained (paddedBytes m) (blockCount m.length))) :=
  hashMessage_of_splitBlocks_eq_ok (padBits_bitEncode h) (splitBlocks_bitEncode (length_paddedBytes m))

theorem blockWords_eq_byteBlock {buf : Memory} {bytes : List Byte} {k : Nat}
    (h : ∀ j < 64, buf.read j = bytes.getD (64 * k + j) 0) : buf.blockWords = byteBlock bytes k := by
  refine List.map_congr_left fun i hi => ?_
  rw [List.mem_range] at hi
  simp only [Memory.readWord, byteWord, h (4 * i) (by omega), h (4 * i + 1) (by omega), h (4 * i + 2) (by omega),
    h (4 * i + 3) (by omega), Nat.add_assoc]

/-! ### Absorbing the Message -/

/-- In phase ABSORB, with the first `n` of the bytes absorbed: the full Blocks are folded into `H`, the rest stands in
`BUF`. -/
structure Absorbing (bytes : List Byte) (n : Nat) (s : State) : Prop where
  fsm : s.fsm = .absorb
  fin : s.fin = .none
  len : s.len.toNat = 8 * n
  bufLen : s.bufLen.toNat = n % 64
  h : s.h = chained bytes (n / 64)
  buf : ∀ j < n % 64, s.buf.read j = bytes.getD (64 * (n / 64) + j) 0

theorem absorbing_beginComputation (bytes : List Byte) (s : State) :
    Absorbing bytes 0 (respond false 0 (beginComputation s)) :=
  ⟨rfl, rfl, rfl, rfl, rfl, fun _ hj => absurd hj (Nat.not_lt_zero _)⟩

/-- The stored byte is the next one of the byte string. -/
theorem Absorbing.read_write {bytes : List Byte} {n : Nat} {s : State} (hs : Absorbing bytes n s) {b : Byte}
    (hbyte : bytes.getD n 0 = b) :
    ∀ j < n % 64 + 1, (s.buf.write s.bufLen.toNat b).read j = bytes.getD (64 * (n / 64) + j) 0 := by
  intro j hj
  rw [Memory.read_write, hs.bufLen]
  split
  case isTrue hlast => rw [hlast, Nat.div_add_mod, hbyte]
  case isFalse => exact hs.buf j (by omega)

/-- One ABSORB: the byte is stored, and the one that fills the buffer is followed by a Block computation. -/
theorem Absorbing.run_absorb {bytes : List Byte} {n : Nat} {s : State} (hs : Absorbing bytes n s) {b : Byte}
    {p : List Instr} (hbyte : bytes.getD n 0 = b) (hfits : 8 * (n + 1) < 2 ^ 64)
    (hinputs : s.inputs = offers (.absorb b :: p)) :
    ∃ u k, RunsTo k s u [⟨false, 0⟩] ∧ k + 146 * (n / 64) = 1 + 146 * ((n + 1) / 64) ∧
      Absorbing bytes (n + 1) u ∧ u.inputs = offers p := by
  have hread := hs.read_write hbyte
  obtain ⟨hfsm, hfin, hlen, hbufLen, hh, -⟩ := hs
  have hroom : s.bufLen.toNat < 64 := by omega
  have hl : s.len.toNat + 8 ≤ 2 ^ 64 - 1 := by omega
  have hstep : step s = .next (absorbed b (beginStep (offers p) s)) := by
    rw [step_offers hinputs (by simp [hfsm]) rfl]
    exact execAbsorb_served hfsm hl hroom
  have hlen' : (absorbed b (beginStep (offers p) s)).len.toNat = s.len.toNat + 8 := toNat_absorbed_len hl
  have hbufLen' : (absorbed b (beginStep (offers p) s)).bufLen.toNat = s.bufLen.toNat + 1 :=
    toNat_absorbed_bufLen (Nat.le_of_lt_succ hroom)
  by_cases hfull : n % 64 = 63
  · have hload : (absorbed b (beginStep (offers p) s)).fsm = .load :=
      if_pos (by rw [beginStep_bufLen, bufferBytes]; omega)
    obtain ⟨u, hrun, hu, huinputs⟩ := run_block_of_offers hload
      (BitVec.eq_of_toNat_eq (hbufLen'.trans (by rw [hbufLen, hfull]; rfl))) (absorbed_inputs ..)
    obtain ⟨hufsm, hubufLen, hufin⟩ := hu.of_none hfin
    have hwords : (absorbed b (beginStep (offers p) s)).buf.blockWords = byteBlock bytes (n / 64) :=
      blockWords_eq_byteBlock fun j hj => hread j (by omega)
    have hdiv : (n + 1) / 64 = n / 64 + 1 := by omega
    have hmod : (n + 1) % 64 = 0 := by omega
    refine ⟨u, 1 + 146, (RunsTo.of_step hstep).trans hrun, by omega, ⟨hufsm, hufin, ?len, ?bufLen, ?h, ?buf⟩, huinputs⟩
    case len => rw [hu.len]; omega
    case bufLen => rw [hubufLen, hmod]; rfl
    case h => rw [hu.h, hwords, absorbed_h, beginStep_h, hh, hdiv, chained_succ]
    case buf => rw [hmod]; exact fun _ hj => absurd hj (Nat.not_lt_zero _)
  · have habsorb : (absorbed b (beginStep (offers p) s)).fsm = .absorb :=
      (if_neg (by rw [beginStep_bufLen, bufferBytes]; omega)).trans hfsm
    have hdiv : (n + 1) / 64 = n / 64 := by omega
    have hmod : (n + 1) % 64 = n % 64 + 1 := by omega
    refine ⟨_, 1, .of_step hstep, by omega, ⟨habsorb, hfin, by omega, by omega, ?h, ?buf⟩, rfl⟩
    case h => rw [hdiv]; exact hh
    case buf => rw [hdiv, hmod]; exact hread

/-- One ABSORB per byte, in order. -/
theorem Absorbing.run_absorbAll {bytes m : List Byte} {n : Nat} {s : State} {p : List Instr}
    (hs : Absorbing bytes n s) (hprefix : m <+: bytes.drop n) (hfits : 8 * (n + m.length) < 2 ^ 64)
    (hinputs : s.inputs = offers (absorbAll m ++ p)) :
    ∃ u k, RunsTo k s u (List.replicate m.length ⟨false, 0⟩) ∧
      k + 146 * (n / 64) = m.length + 146 * ((n + m.length) / 64) ∧
      Absorbing bytes (n + m.length) u ∧ u.inputs = offers p := by
  induction m generalizing n s with
  | nil => exact ⟨s, 0, .refl s, by simp, hs, hinputs⟩
  | cons b m ih =>
    obtain ⟨tail, htail⟩ := hprefix
    have hbyte : bytes.getD n 0 = b := by
      rw [← Nat.add_zero n, List.getD_eq_getElem?_getD, ← List.getElem?_drop, ← htail]
      rfl
    have hrest : m <+: bytes.drop (n + 1) := ⟨tail, by rw [← List.tail_drop, ← htail, List.cons_append, List.tail_cons]⟩
    have hcount : n + (b :: m).length = n + 1 + m.length := by rw [List.length_cons]; omega
    rw [hcount] at hfits ⊢
    rw [List.length_cons]
    obtain ⟨v, k, hvrun, hk, hv, hvinputs⟩ := hs.run_absorb hbyte (by omega) hinputs
    obtain ⟨u, k', hurun, hk', hu, huinputs⟩ := ih hv hrest hfits hvinputs
    exact ⟨u, k + k', hvrun.trans hurun, by omega, hu, huinputs⟩

/-! ### Closing the Message -/

/-- The Block FINAL pads is the Block of the padded Message that the absorbed bytes have begun. -/
theorem Absorbing.padBlock_blockWords {m : List Byte} {s : State} (hs : Absorbing (paddedBytes m) m.length s) :
    (padBlock s.buf s.bufLen.toNat s.len).blockWords = byteBlock (paddedBytes m) (m.length / 64) := by
  have hlen : s.len = BitVec.ofNat 64 (8 * m.length) := by rw [← hs.len, BitVec.ofNat_toNat, BitVec.setWidth_eq]
  have hsplit := Nat.div_add_mod m.length 64
  refine blockWords_eq_byteBlock fun j hj => ?_
  rw [hs.bufLen, hlen, padBlock_read _ _ (Nat.mod_lt _ (by decide))]
  split_ifs with hsuffix hmark hzero
  · have hpos : 64 * (m.length / 64) + j = m.length + 1 + padZeroBytes m.length + (j - 56) := by
      rw [padZeroBytes, if_pos hsuffix.1]
      omega
    rw [hpos, getD_paddedBytes_length m (by omega)]
  · rw [hmark, hsplit, getD_paddedBytes_mark]
  · refine (getD_paddedBytes_zero m (by omega) ?_).symm
    unfold padZeroBytes
    split <;> omega
  · exact hs.buf j (by omega)

/-- The extra Block is the last Block of a padded Message whose last 8 bytes do not fit behind it. -/
theorem extraBlock_blockWords (buf : Memory) {m : List Byte} (hlong : 55 < m.length % 64) :
    (extraBlock buf (BitVec.ofNat 64 (8 * m.length))).blockWords =
      byteBlock (paddedBytes m) (m.length / 64 + 1) := by
  have hzeros : padZeroBytes m.length = 119 - m.length % 64 := if_neg (by omega)
  refine blockWords_eq_byteBlock fun j hj => ?_
  rw [extraBlock_read]
  split_ifs with hsuffix hzero
  · have hpos : 64 * (m.length / 64 + 1) + j = m.length + 1 + padZeroBytes m.length + (j - 56) := by omega
    rw [hpos, getD_paddedBytes_length m (by omega)]
  · exact (getD_paddedBytes_zero m (by omega) (by omega)).symm
  · omega

/-- FINAL folds in what the padded Message has left, one Block or two. -/
theorem Absorbing.finalH_eq {m : List Byte} {s : State} (hs : Absorbing (paddedBytes m) m.length s) :
    finalH s = chained (paddedBytes m) (blockCount m.length) := by
  have hlen : s.len = BitVec.ofNat 64 (8 * m.length) := by rw [← hs.len, BitVec.ofNat_toNat, BitVec.setWidth_eq]
  rw [finalH, hs.padBlock_blockWords, hs.h, ← chained_succ, hs.bufLen]
  split
  case isTrue hshort =>
    have hcount : blockCount m.length = m.length / 64 + 1 := by unfold blockCount; omega
    rw [hcount]
  case isFalse hlong =>
    have hcount : blockCount m.length = m.length / 64 + 1 + 1 := by unfold blockCount; omega
    rw [hlen, extraBlock_blockWords _ (by omega), ← chained_succ, hcount]

/-- The whole command sequence: INIT, the bytes, FINAL. -/
theorem run_messageCommands {m : List Byte} {s : State} (hfits : 8 * m.length < 2 ^ 64) (hready : s.fsm.ready = true)
    (hinputs : s.inputs = offers (messageCommands m)) :
    ∃ u, RunsTo (m.length + 2 + 146 * blockCount m.length) s u (List.replicate (m.length + 2) ⟨false, 0⟩) ∧
      u.fsm = .done ∧ u.inputs = [] ∧ u.h = chained (paddedBytes m) (blockCount m.length) := by
  obtain ⟨v, k, hvrun, hk, hv, hvinputs⟩ := (absorbing_beginComputation (paddedBytes m)
      (beginStep (offers (absorbAll m ++ [.final])) s)).run_absorbAll (m := m) (p := [.final])
    (isPrefix_paddedBytes m) (by omega) rfl
  rw [Nat.zero_add] at hv hk
  obtain ⟨u, hurun, hfsm, -, -, -, -, hh, huinputs⟩ := run_final hv.fsm (by rw [hv.bufLen]; omega) hvinputs
  refine ⟨u, ?run, hfsm, huinputs, hh.trans hv.finalH_eq⟩
  case run =>
    have hrun := ((RunsTo.of_step (step_offers hinputs hready rfl)).trans hvrun).trans hurun
    have hresponses : [⟨false, 0⟩] ++ List.replicate m.length ⟨false, 0⟩ ++ [⟨false, 0⟩] =
        List.replicate (m.length + 2) (⟨false, 0⟩ : Response) := by
      rw [List.singleton_append, ← List.replicate_succ, ← List.replicate_succ']
    have hsteps : 1 + k + (1 + if v.bufLen.toNat ≤ 55 then 146 else 292) =
        m.length + 2 + 146 * blockCount m.length := by
      rw [hv.bufLen, blockCount]
      split <;> omega
    rw [hsteps] at hrun
    exact hresponses ▸ hrun

/-! ### The reads as parts of the Digest -/

theorem digestWord_eq_div (h : Vector Word 5) {i : Nat} (hi : i ≤ 4) :
    digestWord h i = BitVec.ofNat 32 ((assembleDigest h).toNat / 2 ^ (128 - 32 * i)) := by
  rw [digestWord_eq h (Nat.lt_succ_of_le hi), ← extractLsb'_assembleDigest h (Nat.lt_succ_of_le hi),
    ← Nat.shiftRight_eq_div_pow]
  rfl

theorem zeroExtend_digestByte_eq_div (h : Vector Word 5) {k : Nat} (hk : k ≤ 19) :
    (digestByte h k).zeroExtend 32 = BitVec.ofNat 32 ((assembleDigest h).toNat / 2 ^ (152 - 8 * k) % 256) := by
  rw [← (assembleConcatenatesTheRegisters h).2 k hk, BitVec.ofNat_toNat]

/-- Nibble `j` lies inside register `j / 8`, so it is nibble `j` from the top of the Digest. -/
theorem toNat_digestNibble_eq_div (h : Vector Word 5) {j : Nat} (hj : j ≤ 39) :
    (digestNibble h j).toNat = (assembleDigest h).toNat / 2 ^ (156 - 4 * j) % 16 := by
  have hreg : j / 8 < 5 := by omega
  have hpos : 128 - 32 * (j / 8) + (28 - 4 * (j % 8)) = 156 - 4 * j := by omega
  rw [digestNibble, digestWord_eq h hreg, ← extractLsb'_assembleDigest h hreg, extractLsb'_extractLsb'_add _ (by omega),
    hpos, BitVec.extractLsb'_toNat, Nat.shiftRight_eq_div_pow]

theorem zeroExtend_digestHex_eq_div (h : Vector Word 5) {j : Nat} (hj : j ≤ 39) :
    (digestHex h j).zeroExtend 32 =
      let v := (assembleDigest h).toNat / 2 ^ (156 - 4 * j) % 16
      BitVec.ofNat 32 (if v ≤ 9 then 0x30 + v else 0x57 + v) :=
  (BitVec.ofNat_toNat 32 _).symm.trans (by rw [digestHex, toNat_hexCode, toNat_digestNibble_eq_div h hj])

/-- Settles O44: the run is `run_messageCommands`, its `H` that of `hash(m)` (`hashMessage_eq_chained`); in DONE the reads are
served. -/
theorem commandSequenceComputesTheHash : Obligations.CommandSequenceComputesTheHash := by
  intro m s hfits hready hinputs
  obtain ⟨u, ⟨hrun, hrsp⟩, hdone, huinputs, hh⟩ := run_messageCommands hfits hready hinputs
  refine ⟨u, ⟨hrun, ⟨huinputs, by rw [hdone, ready_done]⟩, fun r hr => ?noError, by simp [hdone]⟩, hdone,
    hh ▸ hashMessage_eq_chained hfits, hrsp, fun i hi => ?rdword, fun k hk => ?rdbyte, fun j hj => ?rdhex⟩
  case noError =>
    rw [hrsp] at hr
    rw [List.eq_of_mem_replicate hr]
  case rdword => rw [(readsDigest_rdword i).exec_done (decide_eq_true hi) hdone, digestWord_eq_div u.h hi, respond]
  case rdbyte =>
    rw [(readsDigest_rdbyte k).exec_done (decide_eq_true hk) hdone, zeroExtend_digestByte_eq_div u.h hk, respond]
  case rdhex =>
    rw [(readsDigest_rdhex j).exec_done (decide_eq_true hj) hdone, zeroExtend_digestHex_eq_div u.h hj, respond]

end Sys2Proof.Machine
end
